-- ==== Sys2Proof/Word.lean ====
section
/-!
DEFINITION. The word types of the block (spec 00_scope.md R6, R8): what the spec treats as bits.
Mathematical integers (`Int` of R8) are Lean's `Int`.
-/

namespace Sys2Proof

/-- `u8`: a byte sent on the line, a byte of the host buffer, the field `A` of a command word (R48). -/
abbrev Byte := BitVec 8

/-- `s32`: a sample, a history slot, the field `V` read as a signed value (R14, R52; `W = 32`). -/
abbrev Sample := BitVec 32

/-- `u32`: a host-buffer address (R37, `AW = 32`). -/
abbrev Addr := BitVec 32

/-- One command word, 64 bits (R48). -/
abbrev CmdWord := BitVec 64

end Sys2Proof
end

