-- ==== Sys2Proof/Config.lean ====
section
/-!
DEFINITION. What a build of the block fixes (spec 00_scope.md R6): the sizes the state's types need,
the parameters a build selects, and, as constants with no body, the values the spec calls OPEN.
The fixed parameters that no type needs (`PREV_OFFSET`, `TERM`, `REPORT_WIDTH`, ...) stand in
Machine/Parameters.lean.
-/

namespace Sys2Proof

/-- History depth, slots per channel (R6). R7: only `N = 3` is the hardware. -/
abbrev N : Nat := 3

/-- Number of channels (R6, R81). -/
abbrev NCH : Nat := 3

/-- A channel: 0 temperature, 1 humidity, 2 pressure (R6, R53, R81). -/
abbrev Chan := Fin NCH

/-- A slot index of one channel (R14). -/
abbrev Slot := Fin N

/-- The two validation policies (R3, R82). -/
inductive Policy where
  | minimal
  | nudge
deriving DecidableEq, Repr, Inhabited

/-- What the range rejection of the Nudge policy does (R93): `RANGE_REJECT_ACTION`. -/
inductive RejectAction where
  | discard
  | nudge
deriving DecidableEq, Repr, Inhabited

/-- The parameters of R6 that a build selects or leaves OPEN and that are plain data.
They are arguments of the step, fixed at construction; no command changes them (R13, R24). -/
structure Params where
  /-- `POLICY`, the same for all channels (R82). -/
  POLICY : Policy
  /-- `BIT_PERIOD_US`, the bit period `T` in microseconds, positive (R66). -/
  BIT_PERIOD_US : Nat
  /-- `RANGE_LO[ch]` (R94). -/
  RANGE_LO : Vector Int NCH
  /-- `RANGE_HI[ch]` (R94). -/
  RANGE_HI : Vector Int NCH
  /-- `RANGE_REJECT_ACTION` (R93). -/
  RANGE_REJECT_ACTION : RejectAction
  /-- `CLOCK_HZ`; no rule depends on it (R6). -/
  CLOCK_HZ : Nat
  /-- `PIN_ID`, an opaque identifier; no rule depends on it (R6, R123). -/
  PIN_ID : Nat
deriving DecidableEq, Repr

/-- What R66 and R94 require of the parameters: a positive bit period, and ordered range bounds. -/
abbrev Params.wf (p : Params) : Prop :=
  0 < p.BIT_PERIOD_US ∧ ∀ ch : Chan, p.RANGE_LO[ch] ≤ p.RANGE_HI[ch]

namespace Config

/-- OPEN (R66, D12): one less than the bit period, so that every positive bit period is admitted. -/
opaque bitPeriodPred : Nat

/-- OPEN (R94, D11): the lower range bounds. -/
opaque rangeLo : Chan → Int

/-- OPEN (R94, D11): the width of each range, so that every ordered pair of bounds is admitted. -/
opaque rangeSpan : Chan → Nat

/-- OPEN (R93, D11). -/
opaque rangeRejectAction : RejectAction

/-- OPEN (R6, D37). -/
opaque clockHz : Nat

/-- OPEN (R6, D38). -/
opaque pinId : Nat

/-- OPEN (R95, D11): `NUDGE_FN (prev, v)`, a total function of its two arguments into s32, of which
nothing else is assumed. -/
opaque nudgeFn : Int → Int → Sample

/-- `BAUD`, the reference rate (R6); the bit period is what the rules read (R66). -/
def BAUD : Nat := 2400

/-- The parameters of the hardware: `POLICY = Minimal`, the default of R6, and the OPEN values. -/
def params : Params where
  POLICY := .minimal
  BIT_PERIOD_US := bitPeriodPred + 1
  RANGE_LO := Vector.ofFn rangeLo
  RANGE_HI := Vector.ofFn fun ch => rangeLo ch + rangeSpan ch
  RANGE_REJECT_ACTION := rangeRejectAction
  CLOCK_HZ := clockHz
  PIN_ID := pinId

end Config

end Sys2Proof
end

