-- ==== Sys2Proof/Machine/Parameters.lean ====
section
/-!
DEFINITION. The fixed parameters of spec 00_scope.md R6 that no type needs, and the character codes
of 30_encoding.md R59.
-/

namespace Sys2Proof.Machine

/-- `PREV_OFFSET = N - 1`, the offset from the cursor to the comparison slot (R6, R84). -/
def PREV_OFFSET : Nat := N - 1

/-- `TERM`, the string terminator (R6, R59). -/
def TERM : Byte := 0x00#8

/-- `REPORT_WIDTH` (R6). -/
def REPORT_WIDTH : Nat := 4

/-- One more than the highest host-buffer address, 0xFFFFFFFF (R6 `AW = 32`, R39). -/
def addrLimit : Nat := 2 ^ 32

/-- The character `'0'` (R59); digit `d` is `'0' + d`. -/
def charZero : Byte := 0x30#8

/-- The character `'-'` (R59). -/
def charMinus : Byte := 0x2D#8

/-- Carriage return (R59). -/
def charCR : Byte := 0x0D#8

/-- Line feed (R59). -/
def charLF : Byte := 0x0A#8

/-- `tdiv(a, b)`, integer division rounded toward zero (R9). -/
def tdiv (a b : Int) : Int := Int.tdiv a b

end Sys2Proof.Machine
end

