-- ==== Sys2Proof/Machine/State.lean ====
section
/-!
DEFINITION. The state of the block: the record of spec 10_state.md R13, the arguments of the step
that R13 sets beside it (assumption log 1), and the record of the responses (log 2). Plain data.
-/

namespace Sys2Proof.Machine

/-- The driven line level (R17): `0` space, `1` mark, `Z` not yet driven. -/
inductive Line where
  | space
  | mark
  | undriven
deriving DecidableEq, Repr

/-- One event of the trace (R20). -/
inductive Event where
  /-- The pin is configured as an output; issued by INIT. -/
  | pinOut
  /-- The pin is driven to `b` (`true` mark, `false` space); issued by `SetPin(b)`. -/
  | level (b : Bool)
  /-- A busy-wait of `d` microseconds; issued by `Wait(d)`. -/
  | delay (d : Nat)
deriving DecidableEq, Repr

/-- The values of `FCODE` (R112), 0 to 4 in this order. -/
inductive FCode where
  /-- 0: no fault. -/
  | none
  /-- 1, `F_ILLEGAL`: the command word decodes to `Illegal` (R113). -/
  | illegal
  /-- 2, `F_NOINIT`: a transmitting command before INIT (R114). -/
  | noInit
  /-- 3, `F_BADADDR`: a host-buffer byte read before the terminator is unmapped or above 0xFFFFFFFF (R115). -/
  | badAddr
  /-- 4, `F_PREEMPT`: a pause or a second invocation inside a frame (R116). -/
  | preempt
deriving DecidableEq, Repr

/-- What the environment does during one `Wait` (R116; assumption log 6, log 16). -/
inductive Draw where
  /-- The `Wait` is lengthened by `extra` microseconds; 0 leaves it undisturbed. -/
  | pause (extra : Nat)
  /-- A second invocation of a transmitting command begins during the `Wait`. -/
  | secondInvocation
deriving DecidableEq, Repr

/-- The host buffer (R37): the mapped bytes by address, addresses strictly rising (`HostMem.wf`). -/
abbrev HostMem := List Host.Cell

/-- One change the host makes to its buffer: the byte at `addr` becomes `value`, or unmapped (R45). -/
structure HostWrite where
  addr : Addr
  value : Option Byte
deriving DecidableEq, Repr

/-- One entry of the host's stream: the command word, and the changes the host makes to its buffer
between the command before it and this one (R45; assumption log 10). -/
structure HostTurn where
  writes : List HostWrite
  word : CmdWord
deriving DecidableEq, Repr

/-- The state. The names are the spec's. -/
structure State where
  /-- `H[ch][i]`, the history slots (R14). -/
  H : Vector (Vector Sample N) NCH
  /-- `CUR[ch]`, the write cursors (R15). -/
  CUR : Vector Slot NCH
  /-- `LINE` (R17). -/
  LINE : Line
  /-- `TXINIT` (R18). -/
  TXINIT : Bool
  /-- `FAULT` (R19). -/
  FAULT : Bool
  /-- `FCODE` (R19). -/
  FCODE : FCode
  /-- `TRACE`, oldest event first (R20). -/
  TRACE : List Event
  /-- `CI`, the index of the next command (R21). -/
  CI : Nat
  /-- The response of each completed command, oldest first: an output, not state of R13 (R22, R141). -/
  responses : List (Option Int)
  /-- The parameters of R6: an argument of the step, read only (R24). -/
  params : Params
  /-- The host buffer of R37: an argument of the step; the block only reads it. -/
  hostMem : HostMem
  /-- The host's command stream (R61): an argument of the step; the block only reads it. -/
  stream : List HostTurn
  /-- The environment's draws for the coming `Wait`s, next first (R116); past its end no `Wait` is
  disturbed. -/
  draws : List Draw
deriving DecidableEq, Repr

/-- Why the machine stops with a fault. -/
inductive Fault where
  /-- Raised by `step` alone, in a state with `FAULT = 1`: "the block executes no more commands until
  reset" (R110). Safe: the spec gives such a state no step. The fault itself was taken as a next
  state by the step that raised it. -/
  | halted (code : FCode)
deriving DecidableEq, Repr

/-- Why the machine gives no step. -/
inductive Refusal where
  /-- Raised by `exec` for an instruction that has no meaning yet. Safe. -/
  | notModelled (mnemonic : String)
  /-- Raised by `step` alone, where `CI` is past the last command of the stream and `FAULT = 0`: the
  normal end of a run (R141). Safe: there is no command to execute. -/
  | endOfStream
deriving DecidableEq, Repr

/-- The state after reset (R30, R127). The parameters are the build's; the host has given no buffer,
no command and no disturbance yet (assumption log 5, log 6, log 9). -/
def State.reset : State where
  H := Vector.replicate NCH (Vector.replicate N 0#32)
  CUR := Vector.replicate NCH 0
  LINE := .undriven
  TXINIT := false
  FAULT := false
  FCODE := .none
  TRACE := []
  CI := 0
  responses := []
  params := Config.params
  hostMem := []
  stream := []
  draws := []

end Sys2Proof.Machine
end

