-- ==== Sys2Proof/Machine/Ops.lean ====
section
/-!
DEFINITION. The named operations over the state (spec 00_scope.md R10): the host buffer, the history,
the pin, the trace, taking a fault, ending a command, and the sending of a byte that every
transmitting command shares (40_transmitter.md R69).
-/

namespace Sys2Proof.Machine

/-! ### The host buffer -/

/-- What an unlisted address reads as: no byte of the caller's buffer (R37). -/
def HostMem.unlisted : Option Byte := none

/-- `hostMem(addr)` (R37). -/
def HostMem.read : HostMem → Nat → Option Byte
  | [], _ => HostMem.unlisted
  | (x, b) :: rest, a => if a = x then some b else HostMem.read rest a

/-- The buffer with the byte at `a` mapped to `b`. A host operation: the block never writes (R42). -/
def HostMem.place : HostMem → Nat → Byte → HostMem
  | [], a, b => [(a, b)]
  | (x, c) :: rest, a, b =>
    if a < x then (a, b) :: (x, c) :: rest
    else if a = x then (a, b) :: rest
    else (x, c) :: HostMem.place rest a b

/-- The buffer with the address `a` unmapped. A host operation. -/
def HostMem.unmap : HostMem → Nat → HostMem
  | [], _ => []
  | (x, c) :: rest, a => if a = x then rest else (x, c) :: HostMem.unmap rest a

/-- One change the host makes (R45). -/
def HostMem.apply (m : HostMem) (w : HostWrite) : HostMem :=
  match w.value with
  | some b => m.place w.addr.toNat b
  | none => m.unmap w.addr.toNat

/-- The canonical form: addresses strictly rising, each a 32-bit address. No entry can equal what an
unlisted address reads as, since that is no byte. -/
abbrev HostMem.wf (m : HostMem) : Prop :=
  (m.map Prod.fst).Pairwise (· < ·) ∧ ∀ c ∈ m, c.1 < addrLimit

/-- `MemRead(addr, 1)` (R37): a byte, or `none` where it raises `F_BADADDR`. -/
def State.memRead (s : State) (a : Nat) : Option Byte :=
  if a < addrLimit then s.hostMem.read a else none

/-- The host's changes to its buffer between two commands, in order (R45). -/
def State.applyHost (ws : List HostWrite) (s : State) : State :=
  { s with hostMem := ws.foldl HostMem.apply s.hostMem }

/-! ### The history -/

/-- `H[ch][i]` (R14). -/
def State.slot (s : State) (ch : Chan) (i : Slot) : Sample := s.H[ch.val][i.val]

/-- `H[ch][i] <- v` (R10). -/
def State.setSlot (ch : Chan) (i : Slot) (v : Sample) (s : State) : State :=
  { s with H := s.H.set ch.val (s.H[ch.val].set i.val v) }

/-- `CUR[ch]` (R15). -/
def State.cursor (s : State) (ch : Chan) : Slot := s.CUR[ch.val]

/-- `CUR[ch] <- c` (R10). -/
def State.setCursor (ch : Chan) (c : Slot) (s : State) : State :=
  { s with CUR := s.CUR.set ch.val c }

/-- `T`, the bit period (R66). -/
def State.bitPeriod (s : State) : Nat := s.params.BIT_PERIOD_US

/-! ### Taking a fault, and ending a command -/

/-- `raise Fault(code)` (R110): what a fault does to the state. `CI` is not advanced, no response is
returned, and what the command did before stays done (R111). There is no return from it but reset
(R119, R120). -/
def State.raise (code : FCode) (s : State) : State :=
  { s with FAULT := true, FCODE := code }

/-- The end of a command that completes: `CI <- CI + 1` (R21), and its response (R22). -/
def State.complete (response : Option Int) (s : State) : State :=
  { s with CI := s.CI + 1, responses := s.responses ++ [response] }

/-- A part of a command: it went through, or it raised a fault and the command stops there. -/
inductive Flow where
  | ok (s : State)
  | raised (s : State)
deriving DecidableEq, Repr

/-- "nothing after it is performed" (R111). -/
def Flow.bind (f : Flow) (k : State → Flow) : Flow :=
  match f with
  | .ok s => k s
  | .raised s => .raised s

/-- The state in which a transmitting command leaves the block: completed, with no response (R22), or
faulted. -/
def Flow.state : Flow → State
  | .ok s => s.complete none
  | .raised s => s

/-- "if TXINIT = 0: raise Fault(F_NOINIT)" (R114), before any effect of the command. -/
def State.requireInit (s : State) (k : State → Flow) : Flow :=
  if s.TXINIT then k s else .raised (s.raise .noInit)

/-! ### The pin and the trace -/

/-- `Emit(e)` (R10). -/
def State.emit (e : Event) (s : State) : State := { s with TRACE := s.TRACE ++ [e] }

/-- The level a bit drives: 1 is mark, 0 is space (R17). -/
def Line.ofBit (b : Bool) : Line := if b then .mark else .space

/-- `SetPin(b)` (R63). -/
def State.setPin (b : Bool) (s : State) : State :=
  ({ s with LINE := Line.ofBit b }).emit (.level b)

/-- Whether a draw disturbs the `Wait` it falls on (R116): `e > 0`, or a second invocation. -/
def Draw.disturbs : Draw → Bool
  | .pause extra => extra > 0
  | .secondInvocation => true

/-- `Wait(d)` (R64) with its draw of R116: a disturbed `Wait` emits no `Delay` and raises
`F_PREEMPT`. -/
def State.wait (d : Nat) (s : State) : Flow :=
  match s.draws with
  | [] => .ok (s.emit (.delay d))
  | e :: rest =>
    let t := { s with draws := rest }
    if e.disturbs then .raised (t.raise .preempt) else .ok (t.emit (.delay d))

/-- One bit slot: `SetPin(b); Wait(T)` (R69). -/
def State.bitSlot (b : Bool) (s : State) : Flow := (s.setPin b).wait s.bitPeriod

/-- Bit slots one after the other. -/
def State.bitSlots : List Bool → State → Flow
  | [], s => .ok s
  | b :: bs, s => (s.bitSlot b).bind (State.bitSlots bs)

/-- The levels of the ten bit slots of a byte: start bit, `c[0]` to `c[7]`, stop bit (R69, R34). -/
def frameLevels (c : Byte) : List Bool :=
  [false] ++ (List.range 8).map (fun i => c.getLsbD i) ++ [true]

/-- `frame(c)` (R69). -/
def State.frame (c : Byte) (s : State) : Flow := s.bitSlots (frameLevels c)

/-- "for b in bytes: frame(b)", in list order and with nothing between two frames (R72, R76). -/
def State.transmit : List Byte → State → Flow
  | [], s => .ok s
  | b :: bs, s => (s.frame b).bind (State.transmit bs)

/-- The loop of WRSTR (R73) at the address `a`, with `room` addresses left below the limit: at
`room = 0` the address is above 0xFFFFFFFF, on which `MemRead` faults (R39). -/
def State.sendString : (room a : Nat) → State → Flow
  | 0, _, s => .raised (s.raise .badAddr)
  | room + 1, a, s =>
    match s.memRead a with
    | none => .raised (s.raise .badAddr)
    | some b => if b = TERM then .ok s else (s.frame b).bind (State.sendString room (a + 1))

end Sys2Proof.Machine
end

