-- ==== Sys2Proof/Machine/Flags.lean ====
section
/-!
DEFINITION. The block has no flags and no condition codes (spec 10_state.md R23): no command reads or
writes one. What stands here are the conditions OFFER computes and does not keep: the band test
(41_smoothed_channel.md R85, R86), the range test (R94), and what each policy writes (R83, R93).
-/

namespace Sys2Proof.Machine

/-- The band test with the sentinel: "prev = 0 or abs(v - prev) <= tdiv(prev, 5)" (R85, R86). -/
def bandAccepts (prev v : Int) : Bool :=
  prev = 0 ∨ ((v - prev).natAbs : Int) ≤ tdiv prev 5

/-- The range test of the Nudge policy: "RANGE_LO[ch] <= v <= RANGE_HI[ch]" (R93, R94). -/
def inRange (p : Params) (ch : Chan) (v : Int) : Bool :=
  p.RANGE_LO[ch.val] ≤ v ∧ v ≤ p.RANGE_HI[ch.val]

/-- The Minimal policy (R83): the value written to the cursor's slot, or `none` where the slot keeps
its value. -/
def minimalWrites (prev : Int) (v : Sample) : Option Sample :=
  if bandAccepts prev v.toInt then some v else none

/-- The Nudge policy, `OFFER_NUDGE` (R93), with `NUDGE_FN` as an argument. -/
def nudgeWrites (nudge : Int → Int → Sample) (p : Params) (ch : Chan) (prev : Int) (v : Sample) :
    Option Sample :=
  if inRange p ch v.toInt then
    if bandAccepts prev v.toInt then some v else some (nudge prev v.toInt)
  else
    match p.RANGE_REJECT_ACTION with
    | .discard => none
    | .nudge => some (nudge prev v.toInt)

/-- What OFFER writes to the slot at the cursor, by the policy of the block (R82, R83). -/
def offerWrites (nudge : Int → Int → Sample) (p : Params) (ch : Chan) (prev : Int) (v : Sample) :
    Option Sample :=
  match p.POLICY with
  | .minimal => minimalWrites prev v
  | .nudge => nudgeWrites nudge p ch prev v

end Sys2Proof.Machine
end

