-- ==== Sys2Proof/Machine/Operands.lean ====
section
/-!
DEFINITION. The operand forms (spec 30_encoding.md R53) and the decimal rendering of an integer
operand (40_transmitter.md R75, R76).
-/

namespace Sys2Proof.Machine

/-- The channel a two-bit operand names: 0, 1 or 2; 3 names none (R53). -/
def chanOf (ch : BitVec 2) : Option Chan :=
  if h : ch.toNat < NCH then some ⟨ch.toNat, h⟩ else none

/-- `sint(V)` (R53): a value operand as an integer. -/
def sint (v : Sample) : Int := v.toInt

/-- `zext(A)` (R53): a width operand as a number. -/
def widthOf (a : Byte) : Nat := a.toNat

/-- `zext(V)` (R53): an address operand as a number. -/
def addrOf (v : Addr) : Nat := v.toNat

/-- The character of a decimal digit (R59, R75). -/
def digitChar (d : Nat) : Byte := charZero + BitVec.ofNat 8 d

/-- The base-10 digits of `m`, most significant first, with at most `fuel` steps. -/
def digitsAux : (fuel m : Nat) → List Nat
  | 0, m => [m % 10]
  | fuel + 1, m => if m < 10 then [m] else digitsAux fuel (m / 10) ++ [m % 10]

/-- The base-10 digits of `m`, most significant first, the first not 0 unless `m` is (R75). -/
def digits (m : Nat) : List Nat := digitsAux m m

/-- `dec(v)` (R75). -/
def dec (v : Int) : List Byte :=
  if v = 0 then [charZero]
  else
    let s := (digits v.natAbs).map digitChar
    if v < 0 then charMinus :: s else s

/-- `pad(v, width)` (R76): zeros to the left of the whole rendered string. -/
def pad (v : Int) (width : Nat) : List Byte :=
  let s := dec v
  if s.length < width then List.replicate (width - s.length) charZero ++ s else s

end Sys2Proof.Machine
end

