-- ==== Sys2Proof/Machine/Channel.lean ====
section
/-!
DEFINITION. The channel commands OFFER and AVG (spec 41_smoothed_channel.md).
-/

namespace Sys2Proof.Machine

/-- `mod(c + offset, N)` as a slot index (R9, R84, R88). -/
def slotAfter (c : Slot) (offset : Nat) : Slot := Fin.ofNat N (c.val + offset)

/-- One tick of a channel (R83), at a comparison offset and with a nudge function that are arguments
(R84 keeps the offset a named parameter). -/
def State.offerWith (offset : Nat) (nudge : Int → Int → Sample) (ch : Chan) (v : Sample)
    (s : State) : State :=
  let c := s.cursor ch
  let prev := (s.slot ch (slotAfter c offset)).toInt
  let t := match offerWrites nudge s.params ch prev v with
    | some x => s.setSlot ch c x
    | none => s
  t.setCursor ch (slotAfter c 1)

/-- One tick of a channel of this hardware (R83): `PREV_OFFSET` (R84) and `NUDGE_FN` (R95). -/
def State.offer (ch : Chan) (v : Sample) (s : State) : State :=
  s.offerWith PREV_OFFSET Config.nudgeFn ch v

/-- `prev`, the value of the comparison slot of this hardware, before a tick (R84). -/
def State.prev (s : State) (ch : Chan) : Int :=
  (s.slot ch (slotAfter (s.cursor ch) PREV_OFFSET)).toInt

/-- The exact sum of the slots of a channel (R96). -/
def State.slotSum (s : State) (ch : Chan) : Int := (s.H[ch.val].toList.map BitVec.toInt).sum

/-- The truncating mean of the slots of a channel (R96). -/
def State.mean (s : State) (ch : Chan) : Int := tdiv (s.slotSum ch) N

/-- OFFER (R83). Channel 3 is an illegal command (R56): a term that names it raises `F_ILLEGAL`
(assumption log 12). -/
def execOffer (ch : BitVec 2) (value : Sample) (s : State) : Host.Outcome State Fault Refusal :=
  .next (match chanOf ch with
    | some c => (s.offer c value).complete none
    | none => s.raise .illegal)

/-- AVG (R96). Channel 3 as for OFFER. -/
def execAvg (ch : BitVec 2) (s : State) : Host.Outcome State Fault Refusal :=
  .next (match chanOf ch with
    | some c => s.complete (some (s.mean c))
    | none => s.raise .illegal)

end Sys2Proof.Machine
end

