-- ==== Sys2Proof/Machine/Report.lean ====
section
/-!
DEFINITION. The report message (spec 42_report.md).
-/

namespace Sys2Proof.Machine

/-- The bytes of the message (R102, R103): the three averages, each padded to `REPORT_WIDTH`, then
CR and LF. A frame changes no slot, so the averages of the loop of R102 are those at its start. -/
def State.reportMessage (s : State) : List Byte :=
  pad (s.mean 0) REPORT_WIDTH ++ pad (s.mean 1) REPORT_WIDTH ++ pad (s.mean 2) REPORT_WIDTH
    ++ [charCR, charLF]

/-- REPORT (R102). -/
def execReport (s : State) : Host.Outcome State Fault Refusal :=
  .next (s.requireInit (State.transmit s.reportMessage)).state

end Sys2Proof.Machine
end

