-- ==== Sys2Proof/Machine/Transmitter.lean ====
section
/-!
DEFINITION. The transmitter commands INIT, WRBYTE, WRSTR and WRINT (spec 40_transmitter.md).
-/

namespace Sys2Proof.Machine

/-- INIT (R67): "Emit(PinOut); SetPin(1); TXINIT <- 1". -/
def execInit (s : State) : Host.Outcome State Fault Refusal :=
  let t := (s.emit .pinOut).setPin true
  .next ({ t with TXINIT := true }.complete none)

/-- WRBYTE (R68). -/
def execWrbyte (c : Byte) (s : State) : Host.Outcome State Fault Refusal :=
  .next (s.requireInit (State.frame c)).state

/-- WRSTR (R73). -/
def execWrstr (addr : Addr) (s : State) : Host.Outcome State Fault Refusal :=
  .next (s.requireInit (State.sendString (addrLimit - addrOf addr) (addrOf addr))).state

/-- WRINT (R76). -/
def execWrint (value : Sample) (width : Byte) (s : State) : Host.Outcome State Fault Refusal :=
  .next (s.requireInit (State.transmit (pad (sint value) (widthOf width)))).state

end Sys2Proof.Machine
end

