-- ==== Sys2Proof/Syntax.lean ====
section
/-!
DEFINITION. The commands of the block (spec 30_encoding.md R54), one constructor per row of
opcode_table.json, with the operands of R53 in the order of the source's call signatures (R58).
-/

namespace Sys2Proof

/-- One command. A `value` is the field `V`, read as a signed integer by the command; `ch` is the
two-bit field `A[1:0]`, of which 3 is no channel (R50, R53). -/
inductive Instr where
  /-- `init()` (R67). -/
  | init
  /-- `writeByte(c)` (R68). -/
  | wrbyte (c : Byte)
  /-- `writeString(s)`, `s` at host-buffer address `addr` (R73). -/
  | wrstr (addr : Addr)
  /-- `writeIntPadded(value, width)` (R76). -/
  | wrint (value : Sample) (width : Byte)
  /-- `offer(newValue)` on channel `ch` (R83). -/
  | offer (ch : BitVec 2) (value : Sample)
  /-- `average()` of channel `ch` (R96). -/
  | avg (ch : BitVec 2)
  /-- The per-cycle message (R102). -/
  | report
deriving DecidableEq, Repr

end Sys2Proof
end

