-- ==== Sys2Proof/Machine/Dispatch.lean ====
section
/-!
DEFINITION. The meaning of each command, one arm per constructor.
-/

namespace Sys2Proof.Machine

def exec (i : Instr) (s : State) : Host.Outcome State Fault Refusal :=
  match i with
  | .init => Sys2Proof.Machine.execInit s
  | .wrbyte c => Sys2Proof.Machine.execWrbyte c s
  | .wrstr addr => Sys2Proof.Machine.execWrstr addr s
  | .wrint value width => Sys2Proof.Machine.execWrint value width s
  | .offer ch value => Sys2Proof.Machine.execOffer ch value s
  | .avg ch => Sys2Proof.Machine.execAvg ch s
  | .report => Sys2Proof.Machine.execReport s

end Sys2Proof.Machine
end

