-- ==== Sys2Proof/WellFormed.lean ====
section
/-!
DEFINITION. Which terms of `Instr` are commands of the block: the operand ranges of spec
30_encoding.md R53. A byte, a width, an address and a value fill their field, so their types hold
the range; the channel is the one operand with a value (3) that is illegal.
-/

namespace Sys2Proof

/-- The channel operand of OFFER and AVG is 0, 1 or 2; "3 is illegal" (R53). -/
def chanWellFormed (ch : BitVec 2) : Bool := ch ≠ 3#2

/-- A command all of whose operands are in the range of R53. -/
def WellFormed : Instr → Bool
  | .init => true
  | .wrbyte _ => true
  | .wrstr _ => true
  | .wrint _ _ => true
  | .offer ch _ => chanWellFormed ch
  | .avg ch => chanWellFormed ch
  | .report => true

end Sys2Proof
end

