-- ==== Sys2Proof/Decode.lean ====
section
/-!
DEFINITION. The decoder of spec 30_encoding.md R55, total on every word and on any bytes, and after
it the encoder of R54 and R58. A rejected word gets the name of the first test of R56 that it fails.
-/

namespace Sys2Proof

/-- Why a word (or a byte string) is no command (R56). -/
inductive Illegal where
  /-- `RSVD != 0` (R51). -/
  | reservedBits
  /-- An `OP` outside the seven assigned values (R49), the all-zero word among them. -/
  | unassignedOp
  /-- A command that takes no `A` operand with `A != 0` (R50). -/
  | unusedA
  /-- A command that takes no `V` operand with `V != 0` (R52). -/
  | unusedV
  /-- `A[7:2] != 0` for OFFER or AVG (R50). -/
  | channelUpperBits
  /-- Channel 3 for OFFER or AVG (R53). -/
  | channelThree
  /-- Fewer than the eight bytes of one word (R57): no word at all. -/
  | shortWord
deriving DecidableEq, Repr

/-- `OP = w[63:56]` (R49). -/
def opField (w : CmdWord) : Byte := w.extractLsb' 56 8

/-- `A = w[55:48]` (R50). -/
def aField (w : CmdWord) : Byte := w.extractLsb' 48 8

/-- `RSVD = w[47:32]` (R51). -/
def rsvdField (w : CmdWord) : BitVec 16 := w.extractLsb' 32 16

/-- `V = w[31:0]` (R52). -/
def vField (w : CmdWord) : BitVec 32 := w.extractLsb' 0 32

/-- The channel operand `A[1:0]`, with `A[7:2] = 0` and `A[1:0] != 3` (R53). -/
def decodeChan (a : Byte) : Except Illegal (BitVec 2) :=
  if a.extractLsb' 2 6 ≠ 0#6 then .error .channelUpperBits
  else if a.extractLsb' 0 2 = 3#2 then .error .channelThree
  else .ok (a.extractLsb' 0 2)

/-- R55: the command a word stands for, or why it stands for none. -/
def decode (w : CmdWord) : Except Illegal Instr :=
  let op := opField w
  let a := aField w
  let v := vField w
  if rsvdField w ≠ 0#16 then .error .reservedBits
  else if op = 0x01#8 then
    if a ≠ 0#8 then .error .unusedA
    else if v ≠ 0#32 then .error .unusedV
    else .ok .init
  else if op = 0x02#8 then
    if v ≠ 0#32 then .error .unusedV
    else .ok (.wrbyte a)
  else if op = 0x03#8 then
    if a ≠ 0#8 then .error .unusedA
    else .ok (.wrstr v)
  else if op = 0x04#8 then .ok (.wrint v a)
  else if op = 0x10#8 then
    match decodeChan a with
    | .error e => .error e
    | .ok ch => .ok (.offer ch v)
  else if op = 0x11#8 then
    match decodeChan a with
    | .error e => .error e
    | .ok ch => if v ≠ 0#32 then .error .unusedV else .ok (.avg ch)
  else if op = 0x20#8 then
    if a ≠ 0#8 then .error .unusedA
    else if v ≠ 0#32 then .error .unusedV
    else .ok .report
  else .error .unassignedOp

/-! ### The encoder -/

/-- `{OP, A, 0x0000, V}` (R48, R51). -/
def cmdWord (op a : Byte) (v : BitVec 32) : CmdWord := op ++ a ++ 0#16 ++ v

/-- The field `A` of a channel operand: `A[7:2] = 0`, `A[1:0] = ch` (R53). -/
def chanA (ch : BitVec 2) : Byte := 0#6 ++ ch

/-- The word of a command (R54, R58). -/
def encode : Instr → CmdWord
  | .init => cmdWord 0x01#8 0#8 0#32
  | .wrbyte c => cmdWord 0x02#8 c 0#32
  | .wrstr addr => cmdWord 0x03#8 0#8 addr
  | .wrint value width => cmdWord 0x04#8 width value
  | .offer ch value => cmdWord 0x10#8 (chanA ch) value
  | .avg ch => cmdWord 0x11#8 (chanA ch) 0#32
  | .report => cmdWord 0x20#8 0#8 0#32

/-! ### The serialised form -/

/-- The byte at offset `k` of a serialised word is bits `[8k+7 : 8k]` (R36). -/
def wordBytes (w : CmdWord) : List Byte := (List.range 8).map fun k => w.extractLsb' (8 * k) 8

/-- The word whose serialised form the eight bytes are (R36). -/
def wordOfBytes (b0 b1 b2 b3 b4 b5 b6 b7 : Byte) : CmdWord :=
  b7 ++ b6 ++ b5 ++ b4 ++ b3 ++ b2 ++ b1 ++ b0

/-- Decode the word at the head of any byte string; the rest of the bytes comes back with it. -/
def decodeBytes : List Byte → Except Illegal (Instr × List Byte)
  | b0 :: b1 :: b2 :: b3 :: b4 :: b5 :: b6 :: b7 :: rest =>
    match decode (wordOfBytes b0 b1 b2 b3 b4 b5 b6 b7) with
    | .ok i => .ok (i, rest)
    | .error e => .error e
  | _ => .error .shortWord

/-- The command word of an instruction whose table bits are `w`: the low `nbits` bits of `w`, and 0
above them. -/
def tableWord (nbits w : Nat) : CmdWord := BitVec.ofNat 64 (w % 2 ^ nbits)

/-- The host's question: what the decoder reads from the word, laid out as R36 serialises it. -/
def decodeTableWord (nbits w : Nat) : Option Instr :=
  match decodeBytes (wordBytes (tableWord nbits w)) with
  | .ok (i, _) => some i
  | .error _ => none

/-! ### The opcode table -/

/-- One row of opcode_table.json: a word belongs to the row when its bits under `mask` are `pattern`. -/
structure Row where
  mnemonic : String
  pattern : CmdWord
  mask : CmdWord
deriving DecidableEq, Repr

/-- The `match`/`mask` rows of opcode_table.json (R55). -/
def table : List Row := [
  ⟨"INIT",   0x0100000000000000#64, 0xFFFFFFFFFFFFFFFF#64⟩,
  ⟨"WRBYTE", 0x0200000000000000#64, 0xFF00FFFFFFFFFFFF#64⟩,
  ⟨"WRSTR",  0x0300000000000000#64, 0xFFFFFFFF00000000#64⟩,
  ⟨"WRINT",  0x0400000000000000#64, 0xFF00FFFF00000000#64⟩,
  ⟨"OFFER",  0x1000000000000000#64, 0xFFFCFFFF00000000#64⟩,
  ⟨"AVG",    0x1100000000000000#64, 0xFFFCFFFFFFFFFFFF#64⟩,
  ⟨"REPORT", 0x2000000000000000#64, 0xFFFFFFFFFFFFFFFF#64⟩]

/-- `w & mask = match`. -/
def Row.accepts (r : Row) (w : CmdWord) : Bool := w &&& r.mask = r.pattern

/-- The mnemonic of a command, as opcode_table.json spells it. -/
def mnemonicOf : Instr → String
  | .init => "INIT"
  | .wrbyte _ => "WRBYTE"
  | .wrstr _ => "WRSTR"
  | .wrint _ _ => "WRINT"
  | .offer _ _ => "OFFER"
  | .avg _ => "AVG"
  | .report => "REPORT"

/-- "the test `a[1:0] != 3` that a mask cannot express", made for OFFER and AVG only (R55). -/
def Row.channelOk (r : Row) (w : CmdWord) : Bool :=
  !(r.mnemonic == "OFFER" || r.mnemonic == "AVG") || w.extractLsb' 48 2 ≠ 3#2

end Sys2Proof
end

