-- ==== Sys2Proof/Machine/Fetch.lean ====
section
/-!
DEFINITION. How the block takes its next command from the host's stream (spec 30_encoding.md R61,
20_memory.md R45, 60_exceptions.md R110, 70_reset_and_hazards.md R141), and how the host places one.
-/

namespace Sys2Proof.Machine

/-- What stands at `CI`. -/
inductive Fetched where
  /-- `FAULT = 1`: no further step (R110). -/
  | halted (code : FCode)
  /-- `CI` is past the last command (R141). -/
  | ended
  /-- A word that decodes to `Illegal`, with the state after the host's turn (R113). -/
  | illegal (why : Illegal) (s : State)
  /-- A command, with the state in which it runs. -/
  | command (i : Instr) (s : State)
deriving DecidableEq, Repr

/-- Take the command at `CI`: the host's changes to its buffer come first, then the word decodes. -/
def fetch (s : State) : Fetched :=
  if s.FAULT then .halted s.FCODE
  else
    match s.stream[s.CI]? with
    | none => .ended
    | some turn =>
      match decode turn.word with
      | .error why => .illegal why (s.applyHost turn.writes)
      | .ok i => .command i (s.applyHost turn.writes)

/-- The stream with the word `w`, and no buffer change, as entry `k`; where the stream is shorter,
all-zero words fill it up. -/
def placeWord (w : CmdWord) : (k : Nat) → List HostTurn → List HostTurn
  | 0, [] => [⟨[], w⟩]
  | 0, _ :: rest => ⟨[], w⟩ :: rest
  | k + 1, [] => ⟨[], 0#64⟩ :: placeWord w k []
  | k + 1, turn :: rest => turn :: placeWord w k rest

/-- The state with the word `w` as its next command. -/
def State.withWord (w : CmdWord) (s : State) : State :=
  { s with stream := placeWord w s.CI s.stream }

end Sys2Proof.Machine
end

