-- ==== Sys2Proof/Machine/Step.lean ====
section
/-!
DEFINITION. One step of the block: one command of the host's stream, to completion (spec
20_memory.md R44).
-/

namespace Sys2Proof.Machine

/-- One step: a faulted state has none (R110), a finished stream gives no command (R141), an illegal
word raises `F_ILLEGAL` before any effect of the command (R113), and a command runs. -/
def step (s : State) : Host.Outcome State Fault Refusal :=
  match fetch s with
  | .halted code => .fault (.halted code)
  | .ended => .refused .endOfStream
  | .illegal _ t => .next (t.raise .illegal)
  | .command i t => exec i t

/-- The state with the word of opcode-table bits `w` as its next command (assumption log 5). -/
def State.withFetchWord (s : State) (nbits w : Nat) : State :=
  s.withWord (Sys2Proof.tableWord nbits w)

end Sys2Proof.Machine
end

