-- ==== Sys2Proof/Machine/Assembler.lean ====
section
/-!
DEFINITION. The text form of the commands (spec 30_encoding.md R58, R59) and the pseudo-commands that
the assembler expands and the decoder never sees (R60). What R58 leaves open of the text (blanks, the
case of hexadecimal digits, a minus before a number) is assumption log 14.
-/

namespace Sys2Proof.Machine

/-- The pseudo-commands of R60. -/
inductive Pseudo where
  /-- `TICK t, h, p`: the driver's cycle for three values (R107). -/
  | tick (t h p : Sample)
  | wrcrlf
deriving DecidableEq, Repr

/-- The expansion of a pseudo-command (R60). -/
def Pseudo.expand : Pseudo → List Instr
  | .tick t h p => [.offer 0#2 t, .offer 1#2 h, .offer 2#2 p, .report]
  | .wrcrlf => [.wrbyte 0x0D#8, .wrbyte 0x0A#8]

/-- A text without the blanks at its two ends. -/
def trim (cs : List Char) : List Char :=
  ((cs.dropWhile (· == ' ')).reverse.dropWhile (· == ' ')).reverse

/-- A text cut at its commas. -/
def splitCommas : List Char → List (List Char)
  | [] => [[]]
  | c :: cs =>
    match splitCommas cs with
    | [] => [[c]]
    | first :: rest => if c = ',' then [] :: first :: rest else (c :: first) :: rest

/-- The value of a digit, hexadecimal digits of either case among them. -/
def digitValue (c : Char) : Option Nat :=
  let k := c.toNat
  if 48 ≤ k ∧ k ≤ 57 then some (k - 48)
  else if 65 ≤ k ∧ k ≤ 70 then some (k - 55)
  else if 97 ≤ k ∧ k ≤ 102 then some (k - 87)
  else none

/-- The number a digit string denotes to a base, after the value `acc` of the digits before it. -/
def readDigits (base : Nat) : (acc : Nat) → List Char → Option Nat
  | acc, [] => some acc
  | acc, c :: cs =>
    match digitValue c with
    | some d => if d < base then readDigits base (acc * base + d) cs else none
    | none => none

/-- An unsigned operand, decimal or `0x` hexadecimal (R58). -/
def readNat : List Char → Option Nat
  | [] => none
  | '0' :: 'x' :: c :: cs => readDigits 16 0 (c :: cs)
  | c :: cs => readDigits 10 0 (c :: cs)

/-- An unsigned operand below a bound (R53). -/
def readBelow (bound : Nat) (cs : List Char) : Option Nat :=
  match readNat cs with
  | some n => if n < bound then some n else none
  | none => none

/-- A value operand: an integer of the s32 range, as `value mod 2^32` (R53, R58). -/
def readValue : List Char → Option Sample
  | '-' :: cs =>
    match readNat cs with
    | some n => if n ≤ 2 ^ 31 then some (BitVec.ofInt 32 (-(n : Int))) else none
    | none => none
  | cs => (readBelow (2 ^ 31) cs).map (BitVec.ofNat 32)

/-- The operand `c` of WRBYTE: a number, or a character literal `'x'` (R58, R59). DESIGN CHOICE
(assumption log 14): a literal is exactly one character between quotes, taken by its ASCII code, also
where R59 does not list it. R58 shows no escape, so one such as `'\r'`, by which R59 names a code, is
refused; a program writes its number. Safe. -/
def readByte : List Char → Option Byte
  | ['\'', c, '\''] => if c.toNat < 128 then some (BitVec.ofNat 8 c.toNat) else none
  | cs => (readBelow 256 cs).map (BitVec.ofNat 8)

/-- A channel: `T`, `H`, `P`, or `0`, `1`, `2` (R58). -/
def readChan : List Char → Option (BitVec 2)
  | ['T'] => some 0#2
  | ['H'] => some 1#2
  | ['P'] => some 2#2
  | ['0'] => some 0#2
  | ['1'] => some 1#2
  | ['2'] => some 2#2
  | _ => none

/-- The commands one line stands for: one command, or the expansion of a pseudo-command (R58, R60). -/
def assembleLine (line : List Char) : Option (List Instr) :=
  let cs := trim line
  let name := cs.takeWhile (· ≠ ' ')
  let text := trim (cs.dropWhile (· ≠ ' '))
  let args := (splitCommas text).map trim
  if name = ['I', 'N', 'I', 'T'] then
    if text = [] then some [.init] else none
  else if name = ['W', 'R', 'B', 'Y', 'T', 'E'] then
    (readByte text).map fun c => [.wrbyte c]
  else if name = ['W', 'R', 'S', 'T', 'R'] then
    (readBelow (2 ^ 32) text).map fun a => [.wrstr (BitVec.ofNat 32 a)]
  else if name = ['W', 'R', 'I', 'N', 'T'] then
    match args with
    | [v, w] =>
      match readValue v, readBelow 256 w with
      | some value, some width => some [.wrint value (BitVec.ofNat 8 width)]
      | _, _ => none
    | _ => none
  else if name = ['O', 'F', 'F', 'E', 'R'] then
    match args with
    | [c, v] =>
      match readChan c, readValue v with
      | some ch, some value => some [.offer ch value]
      | _, _ => none
    | _ => none
  else if name = ['A', 'V', 'G'] then
    (readChan text).map fun ch => [.avg ch]
  else if name = ['R', 'E', 'P', 'O', 'R', 'T'] then
    if text = [] then some [.report] else none
  else if name = ['T', 'I', 'C', 'K'] then
    match args with
    | [t, h, p] =>
      match readValue t, readValue h, readValue p with
      | some vt, some vh, some vp => some (Pseudo.tick vt vh vp).expand
      | _, _, _ => none
    | _ => none
  else if name = ['W', 'R', 'C', 'R', 'L', 'F'] then
    if text = [] then some Pseudo.wrcrlf.expand else none
  else none

/-- The words of a program, one line per entry (R58, R61). -/
def assemble : List (List Char) → Option (List CmdWord)
  | [] => some []
  | line :: lines =>
    match assembleLine line, assemble lines with
    | some is, some ws => some (is.map encode ++ ws)
    | _, _ => none


end Sys2Proof.Machine
end

