-- ==== Sys2Proof/Machine/Trace.lean ====
section
/-!
DEFINITION. Readings of the trace (spec 40_transmitter.md R65, R69, R70 and 70_reset_and_hazards.md
R138): the segments, the wire they draw, and the time they take. The machine reads none of these
back; claims are stated in them.
-/

namespace Sys2Proof.Machine

/-- The events of bit slots held for `T` each: `Level(b), Delay(T)` (R65, R69). -/
def slotEvents (T : Nat) (levels : List Bool) : List Event :=
  levels.flatMap fun b => [.level b, .delay T]

/-- The twenty events of one undisturbed `frame(c)` (R69). -/
def frameEvents (T : Nat) (c : Byte) : List Event := slotEvents T (frameLevels c)

/-- The events of the frames of a list of bytes, with nothing between two frames (R72). -/
def messageEvents (T : Nat) (bytes : List Byte) : List Event := bytes.flatMap (frameEvents T)

/-- The segments: each `Level(b)` followed directly by a `Delay(d)` (R65). -/
def segments : List Event → List (Bool × Nat)
  | .level b :: .delay d :: rest => (b, d) :: segments rest
  | _ :: rest => segments rest
  | [] => []

/-- The level on the wire at time `t` after the first segment begins (R65): a segment holds its level
for its own delay. -/
def levelAt : List (Bool × Nat) → Nat → Option Bool
  | [], _ => none
  | (b, d) :: rest, t => if t < d then some b else levelAt rest (t - d)

/-- The merged view: adjacent segments of one level are one unbroken level on the wire (R65). -/
def merge : List (Bool × Nat) → List (Bool × Nat)
  | [] => []
  | (b, d) :: rest =>
    match merge rest with
    | [] => [(b, d)]
    | (b', d') :: rest' => if b = b' then (b, d + d') :: rest' else (b, d) :: (b', d') :: rest'

/-- The time an event takes: only a `Delay` has one (R63, R138). -/
def Event.time : Event → Nat
  | .delay d => d
  | .pinOut => 0
  | .level _ => 0

/-- The duration of a trace: the sum of its delays (R138). -/
def duration (es : List Event) : Nat := (es.map Event.time).sum

/-- The line level after an event: a `Level` sets it (R63). -/
def Line.after (l : Line) : Event → Line
  | .level b => Line.ofBit b
  | .pinOut => l
  | .delay _ => l

/-- The line level a trace leaves (R17, R63): that of its last `Level`, and `Z` where it has none. -/
def lineOf (es : List Event) : Line := es.foldl Line.after .undriven

end Sys2Proof.Machine
end

