-- ==== Sys2Proof/Safety.lean ====
section
/-!
DEFINITION. What claims are stated in: the launch premises of spec 70_reset_and_hazards.md R142, the
invariant of the machine, a run, and the reading of a rendered integer.
`SINGLE_CALLER` (R142) needs no predicate: a step runs one command of one stream to completion.
-/

namespace Sys2Proof.Machine

/-- None of the next `k` `Wait`s is disturbed. -/
def State.Undisturbed (k : Nat) (s : State) : Prop := ∀ e ∈ s.draws.take k, e.disturbs = false

/-- `NOPREEMPT` (R142): no `Wait` to come is disturbed. -/
def State.NoPreempt (s : State) : Prop := ∀ e ∈ s.draws, e.disturbs = false

/-- `NO_FAULT` (R142): the run so far has recorded no fault. -/
def State.NoFault (s : State) : Prop := s.FAULT = false

/-- The host buffer holds the bytes `bytes`, none of them `TERM`, from the address `a` on (R38). -/
def State.BufHolds (s : State) : (a : Nat) → (bytes : List Byte) → Prop
  | _, [] => True
  | a, b :: bs => s.memRead a = some b ∧ b ≠ TERM ∧ s.BufHolds (a + 1) bs

/-- `BUF_TERMINATED` (R142): the string at `a` is `bytes`, and a 0x00 follows it. -/
def State.BufTerminated (s : State) (a : Nat) (bytes : List Byte) : Prop :=
  s.BufHolds a bytes ∧ s.memRead (a + bytes.length) = some TERM

/-- The bytes a command sends by a list fixed before its first frame: WRBYTE, WRINT and REPORT. WRSTR
finds its bytes as it goes, and the other commands send none. -/
def State.messageOf (s : State) : Instr → Option (List Byte)
  | .init => none
  | .wrbyte c => some [c]
  | .wrstr _ => none
  | .wrint value width => some (pad (sint value) (widthOf width))
  | .offer _ _ => none
  | .avg _ => none
  | .report => some s.reportMessage

/-- The transmitting commands (R78). -/
def transmits : Instr → Bool
  | .init => false
  | .wrbyte _ => true
  | .wrstr _ => true
  | .wrint _ _ => true
  | .offer _ _ => false
  | .avg _ => false
  | .report => true

/-- What holds in every reachable state. -/
structure State.Inv (s : State) : Prop where
  /-- The host buffer is in its canonical form. -/
  mem : s.hostMem.wf
  /-- The parameters are as R66 and R94 require. -/
  params : s.params.wf
  /-- `FAULT = 0` and `FCODE = 0` go together (R19). -/
  fault : s.FAULT = false ↔ s.FCODE = .none
  /-- The line is at the level of the last `Level` of the trace (R17, R63). -/
  line : s.LINE = lineOf s.TRACE
  /-- The line idles at mark once INIT has run, unless a frame was broken off (R29, R111). -/
  idle : s.TXINIT = true → s.FCODE ≠ .preempt → s.LINE = .mark
  /-- Nothing was sent and nothing was driven before INIT (R18, R114). -/
  quiet : s.TXINIT = false → s.TRACE = []
  /-- One response per completed command (R21, R22). -/
  answered : s.responses.length = s.CI

/-- The commands of a list run one after the other, from the first that stops on no next state or on
a fault (R44, R110). -/
def runCommands : List Instr → State → Host.Outcome State Fault Refusal
  | [], s => .next s
  | i :: is, s =>
    match exec i s with
    | .next t => if t.FAULT then .next t else runCommands is t
    | .fault r => .fault r
    | .refused r => .refused r

/-- The list of responses of a run (R141): the values returned, in order. -/
def State.values (s : State) : List Int := s.responses.filterMap id

/-- The number a digit list denotes, most significant digit first. -/
def numberOf (ds : List Nat) : Nat := ds.foldl (fun n d => 10 * n + d) 0

end Sys2Proof.Machine
end

