-- ==== Sys2Proof/Certificates/Slice0/Obligations.lean ====
section
/-!
DEFINITION. The statements about the block, from the numbered rules of its spec. Each docstring names
the rule it formalises; what rests on a choice of the model names the log entry.
-/

open Sys2Proof Sys2Proof.Machine

/-! ### Encoding (spec 30_encoding.md) -/

/-- R53 to R55, R58: the decoder reads back every well-formed command from its word, every operand at
every value. -/
def Obligations.DecodeOfEncodeIsTheCommand : Prop :=
  ∀ i : Instr, WellFormed i = true → decode (encode i) = .ok i

/-- R48 to R55: a word the decoder accepts is the word of the command it stands for, and that command
is well-formed. So no two words stand for one command. -/
def Obligations.EncodeOfDecodeIsTheWord : Prop :=
  ∀ (w : CmdWord) (i : Instr), decode w = .ok i → encode i = w ∧ WellFormed i = true

/-- R55, line by line, and its comparison with the `match`/`mask` rows of opcode_table.json. -/
def Obligations.DecoderFollowsTheAcceptingLines : Prop :=
  ∀ w : CmdWord,
    let op := w.extractLsb' 56 8
    let a := w.extractLsb' 48 8
    let r := w.extractLsb' 32 16
    let v := w.extractLsb' 0 32
    let chanLine := a.extractLsb' 2 6 = 0#6 ∧ a.extractLsb' 0 2 ≠ 3#2
    (r ≠ 0 → ∃ e, decode w = .error e) ∧
    (r = 0 →
      (op = 0x01#8 ∧ a = 0 ∧ v = 0 → decode w = .ok .init) ∧
      (op = 0x02#8 ∧ v = 0 → decode w = .ok (.wrbyte a)) ∧
      (op = 0x03#8 ∧ a = 0 → decode w = .ok (.wrstr v)) ∧
      (op = 0x04#8 → decode w = .ok (.wrint v a)) ∧
      (op = 0x10#8 ∧ chanLine → decode w = .ok (.offer (a.extractLsb' 0 2) v)) ∧
      (op = 0x11#8 ∧ chanLine ∧ v = 0 → decode w = .ok (.avg (a.extractLsb' 0 2))) ∧
      (op = 0x20#8 ∧ a = 0 ∧ v = 0 → decode w = .ok .report)) ∧
    ((¬ ∃ row ∈ table, row.accepts w = true ∧ row.channelOk w = true) →
      ∃ e, decode w = .error e) ∧
    ∀ row ∈ table, (row.accepts w = true ∧ row.channelOk w = true ↔
      ∃ i, decode w = .ok i ∧ mnemonicOf i = row.mnemonic)

/-- R56: the words the decoder refuses are those of the five kinds, and executing one raises
`F_ILLEGAL`. -/
def Obligations.IllegalWordsAreTheFiveKinds : Prop :=
  ∀ w : CmdWord,
    let op := w.extractLsb' 56 8
    let a := w.extractLsb' 48 8
    let v := w.extractLsb' 0 32
    ((∃ e, decode w = .error e) ↔
      op ∉ [0x01#8, 0x02#8, 0x03#8, 0x04#8, 0x10#8, 0x11#8, 0x20#8] ∨
      w.extractLsb' 32 16 ≠ 0 ∨
      (op ∈ [0x01#8, 0x03#8, 0x20#8] ∧ a ≠ 0) ∨
      (op ∈ [0x01#8, 0x02#8, 0x11#8, 0x20#8] ∧ v ≠ 0) ∨
      (op ∈ [0x10#8, 0x11#8] ∧ (a.extractLsb' 2 6 ≠ 0#6 ∨ a.extractLsb' 0 2 = 3#2))) ∧
    ((∃ e, decode w = .error e) →
      ∀ (s : State) (ws : List HostWrite), s.FAULT = false → s.stream[s.CI]? = some ⟨ws, w⟩ →
        ∃ t, step s = .next t ∧ t.FAULT = true ∧ t.FCODE = .illegal)

/-- R62: the worked encodings, from text to word and back, and the two illegal words. -/
def Obligations.WorkedEncodings : Prop :=
  (∀ row ∈ ([
      ("INIT", .init, 0x0100000000000000#64),
      ("WRBYTE 0x41", .wrbyte 0x41#8, 0x0241000000000000#64),
      ("WRSTR 0x100", .wrstr 0x100#32, 0x0300000000000100#64),
      ("WRINT 7, 4", .wrint 7#32 4#8, 0x0404000000000007#64),
      ("WRINT -5, 4", .wrint (BitVec.ofInt 32 (-5)) 4#8, 0x04040000FFFFFFFB#64),
      ("OFFER T, 2345", .offer 0#2 2345#32, 0x1000000000000929#64),
      ("OFFER H, 567", .offer 1#2 567#32, 0x1001000000000237#64),
      ("OFFER P, 1013", .offer 2#2 1013#32, 0x10020000000003F5#64),
      ("AVG P", .avg 2#2, 0x1102000000000000#64),
      ("REPORT", .report, 0x2000000000000000#64)] : List (String × Instr × CmdWord)),
    assembleLine row.1.toList = some [row.2.1] ∧ encode row.2.1 = row.2.2 ∧
      decode row.2.2 = .ok row.2.1) ∧
  (∃ e, decode 0x1003000000000005#64 = .error e) ∧
  (∃ e, decode 0x0000000000000000#64 = .error e)

/-- R36: the bytes of a serialised word, and that the decoder reads the word back from them with any
bytes behind it. -/
def Obligations.SerialisedWordReadsBack : Prop :=
  ∀ (w : CmdWord) (rest : List Byte),
    (wordBytes w).length = 8 ∧
    (∀ k < 8, (wordBytes w)[k]? = some (w.extractLsb' (8 * k) 8)) ∧
    decodeBytes (wordBytes w ++ rest) = (decode w).map fun i => (i, rest)

/-- R60: the pseudo-commands, expanded by the assembler. -/
def Obligations.PseudoCommandsExpand : Prop :=
  (∀ t h p : Sample,
    (Pseudo.tick t h p).expand = [.offer 0#2 t, .offer 1#2 h, .offer 2#2 p, .report]) ∧
  Pseudo.wrcrlf.expand = [.wrbyte 0x0D#8, .wrbyte 0x0A#8] ∧
  assembleLine "TICK 2345, 567, 1013".toList =
    some (Pseudo.tick 2345#32 567#32 1013#32).expand ∧
  assembleLine "WRCRLF".toList = some Pseudo.wrcrlf.expand

/-- R58, R61: the lines of a program assemble to its words in order, with a character literal, channels by
number and hexadecimal operands; a channel 3 is refused. The blanks of the text are the model's choice
(log 14). -/
def Obligations.AssembledTextGivesTheWords : Prop :=
  assemble ["INIT".toList, "WRBYTE 'A'".toList, "WRCRLF".toList, "WRSTR 0xFFFFFFFF".toList] =
    some [0x0100000000000000#64, 0x0241000000000000#64, 0x020D000000000000#64,
      0x020A000000000000#64, 0x03000000FFFFFFFF#64] ∧
  assemble ["OFFER 0, -300".toList, "AVG 2".toList, "REPORT".toList] =
    some [0x10000000FFFFFED4#64, 0x1102000000000000#64, 0x2000000000000000#64] ∧
  assembleLine "OFFER 3, 5".toList = none

/-! ### The step, the faults and the reset -/

/-- R21, R44, R45: where the word at `CI` decodes to a command, a step is that command, run in the state
in which the host's buffer changes before it have been made. -/
def Obligations.StepRunsTheDecodedCommand : Prop :=
  ∀ (s : State) (turn : HostTurn) (i : Instr), s.FAULT = false →
    s.stream[s.CI]? = some turn → decode turn.word = .ok i →
    step s = exec i { s with hostMem := turn.writes.foldl HostMem.apply s.hostMem }

/-- R113, R110: an illegal word raises `F_ILLEGAL` before any effect of the command: only the fault is
recorded (beside the buffer changes the host itself made before the word, log 10). -/
def Obligations.IllegalWordRaisesIllegalFault : Prop :=
  ∀ (s : State) (turn : HostTurn) (e : Illegal), s.FAULT = false →
    s.stream[s.CI]? = some turn → decode turn.word = .error e →
    step s = .next { s with
      hostMem := turn.writes.foldl HostMem.apply s.hostMem
      FAULT := true
      FCODE := .illegal }

/-- R110, R120: a faulted state has no further step. -/
def Obligations.FaultedStateHasNoStep : Prop :=
  ∀ s : State, s.FAULT = true → step s = .fault (.halted s.FCODE)

/-- R141: past the last command there is none to run. That the step then answers this refusal is the
model's choice (log 4). -/
def Obligations.FinishedStreamGivesNoCommand : Prop :=
  ∀ s : State, s.FAULT = false → (step s = .refused .endOfStream ↔ s.stream.length ≤ s.CI)

/-- R30: the reset value of every field of R13. -/
def Obligations.ResetStateIsAsSpecified : Prop :=
  (∀ (ch : Chan) (i : Slot), State.reset.slot ch i = 0) ∧
  (∀ ch : Chan, State.reset.cursor ch = 0) ∧
  State.reset.LINE = .undriven ∧
  State.reset.TXINIT = false ∧
  State.reset.FAULT = false ∧
  State.reset.FCODE = .none ∧
  State.reset.TRACE = [] ∧
  State.reset.CI = 0

/-- R17 to R22, R29, R37, R66, R94: every step keeps the invariant of the machine. -/
def Obligations.EveryStepKeepsTheInvariant : Prop :=
  ∀ s t : State, s.Inv → step s = .next t → t.Inv

/-- R30: the invariant holds at reset. -/
def Obligations.ResetMeetsTheInvariant : Prop := State.reset.Inv

/-- R20, R111: no step shortens or rewrites the trace, and none rewrites a response. -/
def Obligations.TraceAndResponsesOnlyGrow : Prop :=
  ∀ s t : State, step s = .next t → s.TRACE <+: t.TRACE ∧ s.responses <+: t.responses

/-- R21, R22, R110: a command completes, advances `CI` by one and returns its response (a value for AVG,
none for every other command), or it faults, keeps `CI` and returns nothing. -/
def Obligations.CommandCompletesOrFaults : Prop :=
  ∀ (i : Instr) (s t : State), s.FAULT = false → exec i s = .next t →
    (t.FAULT = false ∧ t.FCODE = s.FCODE ∧ t.CI = s.CI + 1 ∧
      ∃ r, t.responses = s.responses ++ [r] ∧ (r ≠ none ↔ ∃ ch, i = .avg ch)) ∨
    (t.FAULT = true ∧ t.FCODE ≠ .none ∧ t.CI = s.CI ∧ t.responses = s.responses)

/-- R24, R42, R47: no step changes a parameter or the command stream, and the host buffer changes by the
host's own changes alone. -/
def Obligations.StepKeepsWhatTheHostSupplies : Prop :=
  ∀ s t : State, step s = .next t →
    t.params = s.params ∧ t.stream = s.stream ∧
    ∃ turn, s.stream[s.CI]? = some turn ∧
      t.hostMem = turn.writes.foldl HostMem.apply s.hostMem

/-- Every command answers a next state in every state. R100 gives that of a well-encoded OFFER or AVG,
and R109 of the source's operations. The rest is the model's reading: a fault is a next state too (log 3),
`exec` does not test `FAULT`, so it answers where R110 gives no step (log 11), and a term with channel 3
answers the fault of its word (log 12). -/
def Obligations.EveryCommandAnswersANextState : Prop :=
  ∀ (i : Instr) (s : State), ∃ t, exec i s = .next t

/-- R116, R142: under `NOPREEMPT` no step raises `F_PREEMPT`, and the premise stays. -/
def Obligations.NoPreemptionNoPreemptFault : Prop :=
  ∀ s t : State, s.NoPreempt → s.FCODE ≠ .preempt → step s = .next t →
    t.NoPreempt ∧ t.FCODE ≠ .preempt

/-! ### The host buffer (spec 20_memory.md) -/

/-- R37, R45: after the host changes one address, a read there finds the change and every other address
reads as before. -/
def Obligations.HostChangeReadsBack : Prop :=
  ∀ (m : HostMem) (w : HostWrite) (a : Nat), m.wf →
    (m.apply w).read a = if a = w.addr.toNat then w.value else m.read a

/-- R37: two buffers in canonical form that read the same at every address are the same data. -/
def Obligations.EqualReadsAreEqualBuffers : Prop :=
  ∀ m m' : HostMem, m.wf → m'.wf → (∀ a, m.read a = m'.read a) → m = m'

/-! ### The transmitter (spec 40_transmitter.md) -/

/-- R67: INIT. -/
def Obligations.InitDrivesTheIdleLevel : Prop :=
  ∀ s : State, exec .init s = .next { s with
    LINE := .mark
    TRACE := s.TRACE ++ [.pinOut, .level true]
    TXINIT := true
    CI := s.CI + 1
    responses := s.responses ++ [none] }

/-- R68, R69: WRBYTE after INIT sends the ten segments of its byte, start bit, `c[0]` to `c[7]`, stop bit,
each held for `T`, and leaves the line at mark. -/
def Obligations.WrbyteSendsTenSegments : Prop :=
  ∀ (c : Byte) (s : State), s.TXINIT = true → s.Undisturbed 10 →
    let T := s.params.BIT_PERIOD_US
    exec (.wrbyte c) s = .next { s with
      LINE := .mark
      TRACE := s.TRACE ++
        [.level false, .delay T,
         .level (c.getLsbD 0), .delay T, .level (c.getLsbD 1), .delay T,
         .level (c.getLsbD 2), .delay T, .level (c.getLsbD 3), .delay T,
         .level (c.getLsbD 4), .delay T, .level (c.getLsbD 5), .delay T,
         .level (c.getLsbD 6), .delay T, .level (c.getLsbD 7), .delay T,
         .level true, .delay T]
      CI := s.CI + 1
      responses := s.responses ++ [none]
      draws := s.draws.drop 10 }

/-- R114: the four transmitting commands fault before INIT, with nothing emitted and nothing read; the
other three never raise `F_NOINIT`. -/
def Obligations.TransmitBeforeInitFaults : Prop :=
  ∀ (i : Instr) (s : State),
    (transmits i = true → s.TXINIT = false →
      exec i s = .next { s with FAULT := true, FCODE := .noInit }) ∧
    (transmits i = false → ∀ t, exec i s = .next t → t.FCODE = .noInit → s.FCODE = .noInit)

/-- R73, R74, R38: WRSTR after INIT sends the bytes before the terminator, and not the terminator; an
empty string sends nothing. -/
def Obligations.WrstrSendsTheString : Prop :=
  ∀ (addr : Addr) (bytes : List Byte) (s : State), s.TXINIT = true →
    s.BufTerminated addr.toNat bytes → s.Undisturbed (10 * bytes.length) →
    exec (.wrstr addr) s = .next { s with
      LINE := if bytes = [] then s.LINE else .mark
      TRACE := s.TRACE ++ messageEvents s.params.BIT_PERIOD_US bytes
      CI := s.CI + 1
      responses := s.responses ++ [none]
      draws := s.draws.drop (10 * bytes.length) }

/-- R115, R74, R39, R111: a string that reaches an address with no byte, or the end of the address space,
before a terminator raises `F_BADADDR`; the frames of the bytes before it stay in the trace. -/
def Obligations.WrstrRunsOutOfTheBuffer : Prop :=
  ∀ (addr : Addr) (bytes : List Byte) (s : State), s.TXINIT = true →
    s.BufHolds addr.toNat bytes →
    (addr.toNat + bytes.length > 0xFFFFFFFF ∨ s.hostMem.read (addr.toNat + bytes.length) = none) →
    s.Undisturbed (10 * bytes.length) →
    exec (.wrstr addr) s = .next { s with
      LINE := if bytes = [] then s.LINE else .mark
      TRACE := s.TRACE ++ messageEvents s.params.BIT_PERIOD_US bytes
      draws := s.draws.drop (10 * bytes.length)
      FAULT := true
      FCODE := .badAddr }

/-- R38: WRSTR reads no address outside its string and the terminator: two buffers that hold the same
terminated string at `addr` give the same run, whatever else they hold and whatever is drawn. -/
def Obligations.WrstrReadsOnlyItsString : Prop :=
  ∀ (addr : Addr) (bytes : List Byte) (s : State) (m : HostMem),
    s.BufTerminated addr.toNat bytes →
    ({ s with hostMem := m } : State).BufTerminated addr.toNat bytes →
    ∃ t, exec (.wrstr addr) s = .next t ∧
      exec (.wrstr addr) { s with hostMem := m } = .next { t with hostMem := m }

/-- R76: WRINT after INIT sends the padded decimal rendering of its value. -/
def Obligations.WrintSendsThePaddedValue : Prop :=
  ∀ (value : Sample) (width : Byte) (s : State), s.TXINIT = true →
    let bytes := pad value.toInt width.toNat
    s.Undisturbed (10 * bytes.length) →
    exec (.wrint value width) s = .next { s with
      LINE := .mark
      TRACE := s.TRACE ++ messageEvents s.params.BIT_PERIOD_US bytes
      CI := s.CI + 1
      responses := s.responses ++ [none]
      draws := s.draws.drop (10 * bytes.length) }

/-- R75: the rendering is a minus sign for a negative value and the digits of its magnitude, most
significant first, with no leading zero. -/
def Obligations.DecimalRenderingDenotesTheValue : Prop :=
  ∀ v : Int, ∃ ds : List Nat,
    (∀ d ∈ ds, d < 10) ∧ numberOf ds = v.natAbs ∧
    (v = 0 → ds = [0]) ∧ (v ≠ 0 → ∃ d rest, ds = d :: rest ∧ d ≠ 0) ∧
    dec v = (if v < 0 then [0x2D#8] else []) ++ ds.map fun d => BitVec.ofNat 8 (0x30 + d)

/-- R76, R77: the padding is zeros to the left of the whole rendering, none where the rendering is as
long as the width or longer; a WRINT sends at most 255 frames. -/
def Obligations.PaddingReachesTheWidth : Prop :=
  (∀ (v : Int) (width : Nat),
    pad v width = List.replicate (width - (dec v).length) 0x30#8 ++ dec v ∧
    (pad v width).length = max (dec v).length width) ∧
  ∀ (value : Sample) (width : Byte), (pad value.toInt width.toNat).length ≤ 255

/-- R77: its worked renderings. -/
def Obligations.PadWorkedExamples : Prop :=
  pad 7 4 = [0x30, 0x30, 0x30, 0x37] ∧
  pad 0 4 = [0x30, 0x30, 0x30, 0x30] ∧
  pad 12345 4 = [0x31, 0x32, 0x33, 0x34, 0x35] ∧
  pad 42 2 = [0x34, 0x32] ∧ pad 42 0 = [0x34, 0x32] ∧ pad 0 0 = [0x30] ∧
  pad (-5) 4 = [0x30, 0x30, 0x2D, 0x35] ∧ pad (-7) 3 = [0x30, 0x2D, 0x37] ∧
  pad (-7) 2 = [0x2D, 0x37] ∧ pad (-1234) 4 = [0x2D, 0x31, 0x32, 0x33, 0x34] ∧
  pad (-2147483648) 4 =
    [0x2D, 0x32, 0x31, 0x34, 0x37, 0x34, 0x38, 0x33, 0x36, 0x34, 0x38]

/-- R116, R111: a WRBYTE, WRINT or REPORT whose `Wait` number `ds.length` is the first disturbed one
raises `F_PREEMPT` there: the trace ends with the level of that slot, and its delay is not emitted. -/
def Obligations.DisturbedWaitBreaksTheMessage : Prop :=
  ∀ (i : Instr) (bytes : List Byte) (s : State) (ds rest : List Draw) (e : Draw),
    s.TXINIT = true → s.messageOf i = some bytes →
    s.draws = ds ++ e :: rest → (∀ d ∈ ds, d.disturbs = false) → e.disturbs = true →
    ds.length < 10 * bytes.length →
    let sent := (messageEvents s.params.BIT_PERIOD_US bytes).take (2 * ds.length + 1)
    exec i s = .next { s with
      LINE := lineOf sent
      TRACE := s.TRACE ++ sent
      draws := rest
      FAULT := true
      FCODE := .preempt }

/-- R116, R117, R111: the same for WRSTR, within the frames of any bytes its string begins with. -/
def Obligations.DisturbedWaitBreaksTheString : Prop :=
  ∀ (addr : Addr) (bytes : List Byte) (s : State) (ds rest : List Draw) (e : Draw),
    s.TXINIT = true → s.BufHolds addr.toNat bytes →
    s.draws = ds ++ e :: rest → (∀ d ∈ ds, d.disturbs = false) → e.disturbs = true →
    ds.length < 10 * bytes.length →
    let sent := (messageEvents s.params.BIT_PERIOD_US bytes).take (2 * ds.length + 1)
    exec (.wrstr addr) s = .next { s with
      LINE := lineOf sent
      TRACE := s.TRACE ++ sent
      draws := rest
      FAULT := true
      FCODE := .preempt }

/-- R27, R79, R114, R42: what INIT, WRBYTE, WRSTR, WRINT and REPORT leave unchanged, on every path: the
history, the cursors, the parameters, the stream, and every byte of the host buffer; INIT also leaves
the fault fields and the draws, and the transmitting commands leave `TXINIT`. -/
def Obligations.TransmitterCommandsFrame : Prop :=
  ∀ (i : Instr) (s t : State), (i = .init ∨ transmits i = true) → exec i s = .next t →
    t.H = s.H ∧ t.CUR = s.CUR ∧ t.params = s.params ∧ t.stream = s.stream ∧
    (∀ a, t.memRead a = s.memRead a) ∧ t.hostMem = s.hostMem ∧
    (i = .init → t.FAULT = s.FAULT ∧ t.FCODE = s.FCODE ∧ t.draws = s.draws) ∧
    (transmits i = true → t.TXINIT = s.TXINIT)

/-- R65: the merged view of a trace is the same wire at every time, and no two of its neighbours have
one level. -/
def Obligations.MergedViewIsTheSameWire : Prop :=
  ∀ segs : List (Bool × Nat),
    (∀ t, levelAt (merge segs) t = levelAt segs t) ∧
    (merge segs).IsChain fun x y => x.1 ≠ y.1

/-- R65, R69: the segments of a message are its bit slots, each of length `T`, and two messages with one
trace are the same bytes. -/
def Obligations.SentBytesAreReadFromTheTrace : Prop :=
  ∀ (T : Nat) (bytes bytes' : List Byte),
    segments (messageEvents T bytes) = (bytes.flatMap frameLevels).map (fun b => (b, T)) ∧
    (messageEvents T bytes = messageEvents T bytes' → bytes = bytes')

/-- R138, R70, R105: the trace duration of every command: of INIT, OFFER and AVG in every state, and of
the four transmitting commands after INIT, where no `Wait` is disturbed. -/
def Obligations.TraceDurationsOfTheCommands : Prop :=
  ∀ s : State,
    let T := s.params.BIT_PERIOD_US
    let added (i : Instr) (d : Nat) :=
      ∃ t, exec i s = .next t ∧ t.FAULT = s.FAULT ∧ duration t.TRACE = duration s.TRACE + d
    let fieldLen (ch : Chan) := max (dec (s.mean ch)).length 4
    added .init 0 ∧
    (∀ ch v, ch ≠ 3#2 → added (.offer ch v) 0) ∧
    (∀ ch, ch ≠ 3#2 → added (.avg ch) 0) ∧
    (s.TXINIT = true → s.NoPreempt →
      (∀ c, added (.wrbyte c) (10 * T)) ∧
      (∀ (addr : Addr) bytes, s.BufTerminated addr.toNat bytes →
        added (.wrstr addr) (10 * bytes.length * T)) ∧
      (∀ value width,
        added (.wrint value width) (10 * max (dec value.toInt).length width.toNat * T)) ∧
      added .report (10 * (fieldLen 0 + fieldLen 1 + fieldLen 2 + 2) * T) ∧
      ((∀ ch, 0 ≤ s.mean ch ∧ s.mean ch ≤ 9999) → added .report (140 * T)))

/-! ### The channels (spec 41_smoothed_channel.md) -/

/-- R83 to R88 under `Minimal`: the comparison slot is `(CUR + N - 1) mod N`, the sample is written to the
slot at the cursor exactly where the comparison value is 0 or the difference is within a fifth of it,
and the cursor advances in every case. -/
def Obligations.OfferMinimalTick : Prop :=
  ∀ (ch : BitVec 2) (c : Chan) (v : Sample) (s : State), c.val = ch.toNat →
    s.params.POLICY = .minimal →
    let cur := s.cursor c
    let prev := (s.slot c (Fin.ofNat 3 (cur.val + 2))).toInt
    exec (.offer ch v) s = .next { s with
      H := if prev = 0 ∨ |v.toInt - prev| ≤ Int.tdiv prev 5 then
          s.H.set c.val (s.H[c.val].set cur.val v) else s.H
      CUR := s.CUR.set c.val (Fin.ofNat 3 (cur.val + 1))
      CI := s.CI + 1
      responses := s.responses ++ [none] }

/-- R93 under `Nudge`: the range check comes first, then the sentinel and the band; a band rejection
writes the nudged value, a range rejection follows `RANGE_REJECT_ACTION`. -/
def Obligations.OfferNudgeTick : Prop :=
  ∀ (ch : BitVec 2) (c : Chan) (v : Sample) (s : State), c.val = ch.toNat →
    s.params.POLICY = .nudge →
    let cur := s.cursor c
    let prev := (s.slot c (Fin.ofNat 3 (cur.val + 2))).toInt
    let nudged := Config.nudgeFn prev v.toInt
    let written (x : Sample) := s.H.set c.val (s.H[c.val].set cur.val x)
    exec (.offer ch v) s = .next { s with
      H := if s.params.RANGE_LO[c.val] ≤ v.toInt ∧ v.toInt ≤ s.params.RANGE_HI[c.val] then
          (if prev = 0 ∨ |v.toInt - prev| ≤ Int.tdiv prev 5 then written v else written nudged)
        else if s.params.RANGE_REJECT_ACTION = .nudge then written nudged else s.H
      CUR := s.CUR.set c.val (Fin.ofNat 3 (cur.val + 1))
      CI := s.CI + 1
      responses := s.responses ++ [none] }

/-- R27, R33, R79, R81, R87, R99, under either policy: OFFER on channel `c` leaves every other channel, every
slot but the one at the cursor, the transmitter, the fault fields, and all of the host buffer. -/
def Obligations.OfferFrame : Prop :=
  ∀ (ch : BitVec 2) (c : Chan) (v : Sample) (s t : State), c.val = ch.toNat →
    exec (.offer ch v) s = .next t →
    (∀ c' i, (c' ≠ c ∨ i ≠ s.cursor c) → t.slot c' i = s.slot c' i) ∧
    (∀ c', c' ≠ c → t.cursor c' = s.cursor c') ∧
    t.LINE = s.LINE ∧ t.TXINIT = s.TXINIT ∧ t.FAULT = s.FAULT ∧ t.FCODE = s.FCODE ∧
    t.TRACE = s.TRACE ∧ t.params = s.params ∧ t.stream = s.stream ∧ t.draws = s.draws ∧
    (∀ a, t.memRead a = s.memRead a) ∧ t.hostMem = s.hostMem

/-- R90, items 1 to 5, under `Minimal`: the corners of the band test, said of what OFFER does to the
history. -/
def Obligations.OfferCornerCases : Prop :=
  ∀ (ch : BitVec 2) (c : Chan) (v : Sample) (s : State), c.val = ch.toNat →
    s.params.POLICY = .minimal →
    let prev := (s.slot c (Fin.ofNat 3 ((s.cursor c).val + 2))).toInt
    ∃ t, exec (.offer ch v) s = .next t ∧
      (prev = 0 → t.slot c (s.cursor c) = v) ∧
      (0 < prev → v.toInt ≤ 0 → t.H = s.H) ∧
      (-4 ≤ prev → prev ≤ 4 → prev ≠ 0 →
        (v.toInt = prev → t.slot c (s.cursor c) = v) ∧ (v.toInt ≠ prev → t.H = s.H)) ∧
      (prev = 5 →
        if 4 ≤ v.toInt ∧ v.toInt ≤ 6 then t.slot c (s.cursor c) = v else t.H = s.H) ∧
      (prev ≤ -5 → t.H = s.H)

/-- R91, under either policy: the comparison slot of the next tick on the channel is the slot this tick
targeted. It holds the sample just offered where that was accepted, and the value the slot kept where
nothing was written; under `Nudge` (R93) a rejection may also have written the nudged value. -/
def Obligations.NextTickComparesWithThisTicksSlot : Prop :=
  ∀ (ch : BitVec 2) (c : Chan) (v : Sample) (s t : State), c.val = ch.toNat →
    exec (.offer ch v) s = .next t →
    let compared (u : State) : Slot := Fin.ofNat 3 ((u.cursor c).val + 2)
    let prev := (s.slot c (compared s)).toInt
    let kept := s.slot c (s.cursor c)
    let nudged := Config.nudgeFn prev v.toInt
    let inBand := prev = 0 ∨ |v.toInt - prev| ≤ Int.tdiv prev 5
    compared t = s.cursor c ∧
    (s.params.POLICY = .minimal → t.slot c (compared t) = if inBand then v else kept) ∧
    (s.params.POLICY = .nudge → t.slot c (compared t) =
      if s.params.RANGE_LO[c.val] ≤ v.toInt ∧ v.toInt ≤ s.params.RANGE_HI[c.val] then
        (if inBand then v else nudged)
      else if s.params.RANGE_REJECT_ACTION = .nudge then nudged else kept)

/-- R92, R88: `k` OFFERs advance the cursor by `k` modulo `N`, whatever they offer and under either
policy, so `3N` of them return it to its start. -/
def Obligations.CursorAfterAnyTicks : Prop :=
  ∀ (ch : BitVec 2) (c : Chan) (vs : List Sample) (s : State), c.val = ch.toNat → s.FAULT = false →
    ∃ t, runCommands (vs.map (Instr.offer ch)) s = .next t ∧
      (t.cursor c).val = ((s.cursor c).val + vs.length) % 3 ∧
      (vs.length = 9 → t.cursor c = s.cursor c)

/-- R96: AVG responds the truncating mean of the slots and changes nothing but `CI`. -/
def Obligations.AvgRespondsTheTruncatingMean : Prop :=
  ∀ (ch : BitVec 2) (c : Chan) (s : State), c.val = ch.toNat →
    exec (.avg ch) s = .next { s with
      CI := s.CI + 1
      responses := s.responses ++
        [some (Int.tdiv ((s.slot c 0).toInt + (s.slot c 1).toInt + (s.slot c 2).toInt) 3)] }

/-- R97: the mean is always in the s32 range, and truncates toward zero for sums of either sign (R9). -/
def Obligations.MeanIsASampleAndTruncates : Prop :=
  ∀ (s : State) (c : Chan),
    let sum := (s.slot c 0).toInt + (s.slot c 1).toInt + (s.slot c 2).toInt
    s.mean c ≥ -2147483648 ∧ s.mean c ≤ 2147483647 ∧
    (0 ≤ sum → 3 * s.mean c ≤ sum ∧ sum < 3 * s.mean c + 3) ∧
    (sum ≤ 0 → sum ≤ 3 * s.mean c ∧ 3 * s.mean c < sum + 3)

/-- R9: `tdiv` is division rounded toward zero, by its formula. -/
def Obligations.TdivIsTheFormula : Prop :=
  ∀ a b : Int, b ≠ 0 → tdiv a b = a.sign * b.sign * (|a| / |b|)

/-- R27, R33, R81: a channel command depends on its own channel alone, and a transmitter command other
than REPORT on no channel: runs from two states that differ elsewhere agree. -/
def Obligations.ChannelsAndTransmitterAreIsolated : Prop :=
  (∀ (ch : BitVec 2) (c : Chan) (v : Sample) (s s' t t' : State), c.val = ch.toNat →
    s.params = s'.params → (∀ i, s.slot c i = s'.slot c i) → s.cursor c = s'.cursor c →
    (exec (.offer ch v) s = .next t → exec (.offer ch v) s' = .next t' →
      (∀ i, t.slot c i = t'.slot c i) ∧ t.cursor c = t'.cursor c) ∧
    (exec (.avg ch) s = .next t → exec (.avg ch) s' = .next t' →
      t.responses.getLast? = t'.responses.getLast?)) ∧
  ∀ (i : Instr) (s t : State) (H : Vector (Vector Sample 3) 3) (CUR : Vector Slot 3),
    i = .init ∨ (transmits i = true ∧ i ≠ .report) → exec i s = .next t →
    exec i { s with H := H, CUR := CUR } = .next { t with H := H, CUR := CUR }

/-- R56 for a term: OFFER or AVG of channel 3, which no legal word decodes to, raises `F_ILLEGAL` as its
word does (the model's reading, log 12). -/
def Obligations.ChannelThreeTermsFault : Prop :=
  ∀ (v : Sample) (s : State),
    exec (.offer 3#2 v) s = .next { s with FAULT := true, FCODE := .illegal } ∧
    exec (.avg 3#2) s = .next { s with FAULT := true, FCODE := .illegal }

/-! ### The report (spec 42_report.md) -/

/-- R102, R103: REPORT after INIT sends the three averages, temperature, humidity, pressure, each padded to
four characters, then CR and LF. -/
def Obligations.ReportSendsTheMessage : Prop :=
  ∀ s : State, s.TXINIT = true →
    let mean (c : Chan) :=
      Int.tdiv ((s.slot c 0).toInt + (s.slot c 1).toInt + (s.slot c 2).toInt) 3
    let bytes := pad (mean 0) 4 ++ pad (mean 1) 4 ++ pad (mean 2) 4 ++ [0x0D#8, 0x0A#8]
    s.Undisturbed (10 * bytes.length) →
    exec .report s = .next { s with
      LINE := .mark
      TRACE := s.TRACE ++ messageEvents s.params.BIT_PERIOD_US bytes
      CI := s.CI + 1
      responses := s.responses ++ [none]
      draws := s.draws.drop (10 * bytes.length) }

/-- R108: with every slot of the three channels at 2345, 567 and 1013, REPORT sends exactly the fourteen
bytes of the source's message. -/
def Obligations.ReportWorkedMessage : Prop :=
  ∀ s : State, s.TXINIT = true → s.NoPreempt →
    (∀ i, s.slot 0 i = 2345#32) → (∀ i, s.slot 1 i = 567#32) → (∀ i, s.slot 2 i = 1013#32) →
    ∃ t, exec .report s = .next t ∧ t.FAULT = s.FAULT ∧
      t.TRACE = s.TRACE ++ messageEvents s.params.BIT_PERIOD_US
        [0x32, 0x33, 0x34, 0x35, 0x30, 0x35, 0x36, 0x37, 0x31, 0x30, 0x31, 0x33, 0x0D, 0x0A]
end

