-- ==== Sys2Proof/Laws/State.lean ====
section
/-!
SUPPORT. What each update of the state does to each field: one lemma per field per update, true by
unfolding once, so that no later proof unfolds a record update.
-/

namespace Sys2Proof.Machine

/-! ### applyHost -/

@[simp] theorem State.applyHost_H (ws : List HostWrite) (s : State) :
    (s.applyHost ws).H = s.H := rfl

@[simp] theorem State.applyHost_CUR (ws : List HostWrite) (s : State) :
    (s.applyHost ws).CUR = s.CUR := rfl

@[simp] theorem State.applyHost_LINE (ws : List HostWrite) (s : State) :
    (s.applyHost ws).LINE = s.LINE := rfl

@[simp] theorem State.applyHost_TXINIT (ws : List HostWrite) (s : State) :
    (s.applyHost ws).TXINIT = s.TXINIT := rfl

@[simp] theorem State.applyHost_FAULT (ws : List HostWrite) (s : State) :
    (s.applyHost ws).FAULT = s.FAULT := rfl

@[simp] theorem State.applyHost_FCODE (ws : List HostWrite) (s : State) :
    (s.applyHost ws).FCODE = s.FCODE := rfl

@[simp] theorem State.applyHost_TRACE (ws : List HostWrite) (s : State) :
    (s.applyHost ws).TRACE = s.TRACE := rfl

@[simp] theorem State.applyHost_CI (ws : List HostWrite) (s : State) :
    (s.applyHost ws).CI = s.CI := rfl

@[simp] theorem State.applyHost_responses (ws : List HostWrite) (s : State) :
    (s.applyHost ws).responses = s.responses := rfl

@[simp] theorem State.applyHost_params (ws : List HostWrite) (s : State) :
    (s.applyHost ws).params = s.params := rfl

@[simp] theorem State.applyHost_hostMem (ws : List HostWrite) (s : State) :
    (s.applyHost ws).hostMem = ws.foldl HostMem.apply s.hostMem := rfl

@[simp] theorem State.applyHost_stream (ws : List HostWrite) (s : State) :
    (s.applyHost ws).stream = s.stream := rfl

@[simp] theorem State.applyHost_draws (ws : List HostWrite) (s : State) :
    (s.applyHost ws).draws = s.draws := rfl

/-! ### setSlot -/

@[simp] theorem State.setSlot_H (ch : Chan) (i : Slot) (v : Sample) (s : State) :
    (s.setSlot ch i v).H = s.H.set ch.val (s.H[ch.val].set i.val v) := rfl

@[simp] theorem State.setSlot_CUR (ch : Chan) (i : Slot) (v : Sample) (s : State) :
    (s.setSlot ch i v).CUR = s.CUR := rfl

@[simp] theorem State.setSlot_LINE (ch : Chan) (i : Slot) (v : Sample) (s : State) :
    (s.setSlot ch i v).LINE = s.LINE := rfl

@[simp] theorem State.setSlot_TXINIT (ch : Chan) (i : Slot) (v : Sample) (s : State) :
    (s.setSlot ch i v).TXINIT = s.TXINIT := rfl

@[simp] theorem State.setSlot_FAULT (ch : Chan) (i : Slot) (v : Sample) (s : State) :
    (s.setSlot ch i v).FAULT = s.FAULT := rfl

@[simp] theorem State.setSlot_FCODE (ch : Chan) (i : Slot) (v : Sample) (s : State) :
    (s.setSlot ch i v).FCODE = s.FCODE := rfl

@[simp] theorem State.setSlot_TRACE (ch : Chan) (i : Slot) (v : Sample) (s : State) :
    (s.setSlot ch i v).TRACE = s.TRACE := rfl

@[simp] theorem State.setSlot_CI (ch : Chan) (i : Slot) (v : Sample) (s : State) :
    (s.setSlot ch i v).CI = s.CI := rfl

@[simp] theorem State.setSlot_responses (ch : Chan) (i : Slot) (v : Sample) (s : State) :
    (s.setSlot ch i v).responses = s.responses := rfl

@[simp] theorem State.setSlot_params (ch : Chan) (i : Slot) (v : Sample) (s : State) :
    (s.setSlot ch i v).params = s.params := rfl

@[simp] theorem State.setSlot_hostMem (ch : Chan) (i : Slot) (v : Sample) (s : State) :
    (s.setSlot ch i v).hostMem = s.hostMem := rfl

@[simp] theorem State.setSlot_stream (ch : Chan) (i : Slot) (v : Sample) (s : State) :
    (s.setSlot ch i v).stream = s.stream := rfl

@[simp] theorem State.setSlot_draws (ch : Chan) (i : Slot) (v : Sample) (s : State) :
    (s.setSlot ch i v).draws = s.draws := rfl

/-! ### setCursor -/

@[simp] theorem State.setCursor_H (ch : Chan) (c : Slot) (s : State) :
    (s.setCursor ch c).H = s.H := rfl

@[simp] theorem State.setCursor_CUR (ch : Chan) (c : Slot) (s : State) :
    (s.setCursor ch c).CUR = s.CUR.set ch.val c := rfl

@[simp] theorem State.setCursor_LINE (ch : Chan) (c : Slot) (s : State) :
    (s.setCursor ch c).LINE = s.LINE := rfl

@[simp] theorem State.setCursor_TXINIT (ch : Chan) (c : Slot) (s : State) :
    (s.setCursor ch c).TXINIT = s.TXINIT := rfl

@[simp] theorem State.setCursor_FAULT (ch : Chan) (c : Slot) (s : State) :
    (s.setCursor ch c).FAULT = s.FAULT := rfl

@[simp] theorem State.setCursor_FCODE (ch : Chan) (c : Slot) (s : State) :
    (s.setCursor ch c).FCODE = s.FCODE := rfl

@[simp] theorem State.setCursor_TRACE (ch : Chan) (c : Slot) (s : State) :
    (s.setCursor ch c).TRACE = s.TRACE := rfl

@[simp] theorem State.setCursor_CI (ch : Chan) (c : Slot) (s : State) :
    (s.setCursor ch c).CI = s.CI := rfl

@[simp] theorem State.setCursor_responses (ch : Chan) (c : Slot) (s : State) :
    (s.setCursor ch c).responses = s.responses := rfl

@[simp] theorem State.setCursor_params (ch : Chan) (c : Slot) (s : State) :
    (s.setCursor ch c).params = s.params := rfl

@[simp] theorem State.setCursor_hostMem (ch : Chan) (c : Slot) (s : State) :
    (s.setCursor ch c).hostMem = s.hostMem := rfl

@[simp] theorem State.setCursor_stream (ch : Chan) (c : Slot) (s : State) :
    (s.setCursor ch c).stream = s.stream := rfl

@[simp] theorem State.setCursor_draws (ch : Chan) (c : Slot) (s : State) :
    (s.setCursor ch c).draws = s.draws := rfl

/-! ### raise -/

@[simp] theorem State.raise_H (code : FCode) (s : State) :
    (s.raise code).H = s.H := rfl

@[simp] theorem State.raise_CUR (code : FCode) (s : State) :
    (s.raise code).CUR = s.CUR := rfl

@[simp] theorem State.raise_LINE (code : FCode) (s : State) :
    (s.raise code).LINE = s.LINE := rfl

@[simp] theorem State.raise_TXINIT (code : FCode) (s : State) :
    (s.raise code).TXINIT = s.TXINIT := rfl

@[simp] theorem State.raise_FAULT (code : FCode) (s : State) :
    (s.raise code).FAULT = true := rfl

@[simp] theorem State.raise_FCODE (code : FCode) (s : State) :
    (s.raise code).FCODE = code := rfl

@[simp] theorem State.raise_TRACE (code : FCode) (s : State) :
    (s.raise code).TRACE = s.TRACE := rfl

@[simp] theorem State.raise_CI (code : FCode) (s : State) :
    (s.raise code).CI = s.CI := rfl

@[simp] theorem State.raise_responses (code : FCode) (s : State) :
    (s.raise code).responses = s.responses := rfl

@[simp] theorem State.raise_params (code : FCode) (s : State) :
    (s.raise code).params = s.params := rfl

@[simp] theorem State.raise_hostMem (code : FCode) (s : State) :
    (s.raise code).hostMem = s.hostMem := rfl

@[simp] theorem State.raise_stream (code : FCode) (s : State) :
    (s.raise code).stream = s.stream := rfl

@[simp] theorem State.raise_draws (code : FCode) (s : State) :
    (s.raise code).draws = s.draws := rfl

/-! ### complete -/

@[simp] theorem State.complete_H (r : Option Int) (s : State) :
    (s.complete r).H = s.H := rfl

@[simp] theorem State.complete_CUR (r : Option Int) (s : State) :
    (s.complete r).CUR = s.CUR := rfl

@[simp] theorem State.complete_LINE (r : Option Int) (s : State) :
    (s.complete r).LINE = s.LINE := rfl

@[simp] theorem State.complete_TXINIT (r : Option Int) (s : State) :
    (s.complete r).TXINIT = s.TXINIT := rfl

@[simp] theorem State.complete_FAULT (r : Option Int) (s : State) :
    (s.complete r).FAULT = s.FAULT := rfl

@[simp] theorem State.complete_FCODE (r : Option Int) (s : State) :
    (s.complete r).FCODE = s.FCODE := rfl

@[simp] theorem State.complete_TRACE (r : Option Int) (s : State) :
    (s.complete r).TRACE = s.TRACE := rfl

@[simp] theorem State.complete_CI (r : Option Int) (s : State) :
    (s.complete r).CI = s.CI + 1 := rfl

@[simp] theorem State.complete_responses (r : Option Int) (s : State) :
    (s.complete r).responses = s.responses ++ [r] := rfl

@[simp] theorem State.complete_params (r : Option Int) (s : State) :
    (s.complete r).params = s.params := rfl

@[simp] theorem State.complete_hostMem (r : Option Int) (s : State) :
    (s.complete r).hostMem = s.hostMem := rfl

@[simp] theorem State.complete_stream (r : Option Int) (s : State) :
    (s.complete r).stream = s.stream := rfl

@[simp] theorem State.complete_draws (r : Option Int) (s : State) :
    (s.complete r).draws = s.draws := rfl

/-! ### emit -/

@[simp] theorem State.emit_H (e : Event) (s : State) :
    (s.emit e).H = s.H := rfl

@[simp] theorem State.emit_CUR (e : Event) (s : State) :
    (s.emit e).CUR = s.CUR := rfl

@[simp] theorem State.emit_LINE (e : Event) (s : State) :
    (s.emit e).LINE = s.LINE := rfl

@[simp] theorem State.emit_TXINIT (e : Event) (s : State) :
    (s.emit e).TXINIT = s.TXINIT := rfl

@[simp] theorem State.emit_FAULT (e : Event) (s : State) :
    (s.emit e).FAULT = s.FAULT := rfl

@[simp] theorem State.emit_FCODE (e : Event) (s : State) :
    (s.emit e).FCODE = s.FCODE := rfl

@[simp] theorem State.emit_TRACE (e : Event) (s : State) :
    (s.emit e).TRACE = s.TRACE ++ [e] := rfl

@[simp] theorem State.emit_CI (e : Event) (s : State) :
    (s.emit e).CI = s.CI := rfl

@[simp] theorem State.emit_responses (e : Event) (s : State) :
    (s.emit e).responses = s.responses := rfl

@[simp] theorem State.emit_params (e : Event) (s : State) :
    (s.emit e).params = s.params := rfl

@[simp] theorem State.emit_hostMem (e : Event) (s : State) :
    (s.emit e).hostMem = s.hostMem := rfl

@[simp] theorem State.emit_stream (e : Event) (s : State) :
    (s.emit e).stream = s.stream := rfl

@[simp] theorem State.emit_draws (e : Event) (s : State) :
    (s.emit e).draws = s.draws := rfl

/-! ### setPin -/

@[simp] theorem State.setPin_H (b : Bool) (s : State) :
    (s.setPin b).H = s.H := rfl

@[simp] theorem State.setPin_CUR (b : Bool) (s : State) :
    (s.setPin b).CUR = s.CUR := rfl

@[simp] theorem State.setPin_LINE (b : Bool) (s : State) :
    (s.setPin b).LINE = Line.ofBit b := rfl

@[simp] theorem State.setPin_TXINIT (b : Bool) (s : State) :
    (s.setPin b).TXINIT = s.TXINIT := rfl

@[simp] theorem State.setPin_FAULT (b : Bool) (s : State) :
    (s.setPin b).FAULT = s.FAULT := rfl

@[simp] theorem State.setPin_FCODE (b : Bool) (s : State) :
    (s.setPin b).FCODE = s.FCODE := rfl

@[simp] theorem State.setPin_TRACE (b : Bool) (s : State) :
    (s.setPin b).TRACE = s.TRACE ++ [.level b] := rfl

@[simp] theorem State.setPin_CI (b : Bool) (s : State) :
    (s.setPin b).CI = s.CI := rfl

@[simp] theorem State.setPin_responses (b : Bool) (s : State) :
    (s.setPin b).responses = s.responses := rfl

@[simp] theorem State.setPin_params (b : Bool) (s : State) :
    (s.setPin b).params = s.params := rfl

@[simp] theorem State.setPin_hostMem (b : Bool) (s : State) :
    (s.setPin b).hostMem = s.hostMem := rfl

@[simp] theorem State.setPin_stream (b : Bool) (s : State) :
    (s.setPin b).stream = s.stream := rfl

@[simp] theorem State.setPin_draws (b : Bool) (s : State) :
    (s.setPin b).draws = s.draws := rfl

/-! ### withWord -/

@[simp] theorem State.withWord_H (w : CmdWord) (s : State) :
    (s.withWord w).H = s.H := rfl

@[simp] theorem State.withWord_CUR (w : CmdWord) (s : State) :
    (s.withWord w).CUR = s.CUR := rfl

@[simp] theorem State.withWord_LINE (w : CmdWord) (s : State) :
    (s.withWord w).LINE = s.LINE := rfl

@[simp] theorem State.withWord_TXINIT (w : CmdWord) (s : State) :
    (s.withWord w).TXINIT = s.TXINIT := rfl

@[simp] theorem State.withWord_FAULT (w : CmdWord) (s : State) :
    (s.withWord w).FAULT = s.FAULT := rfl

@[simp] theorem State.withWord_FCODE (w : CmdWord) (s : State) :
    (s.withWord w).FCODE = s.FCODE := rfl

@[simp] theorem State.withWord_TRACE (w : CmdWord) (s : State) :
    (s.withWord w).TRACE = s.TRACE := rfl

@[simp] theorem State.withWord_CI (w : CmdWord) (s : State) :
    (s.withWord w).CI = s.CI := rfl

@[simp] theorem State.withWord_responses (w : CmdWord) (s : State) :
    (s.withWord w).responses = s.responses := rfl

@[simp] theorem State.withWord_params (w : CmdWord) (s : State) :
    (s.withWord w).params = s.params := rfl

@[simp] theorem State.withWord_hostMem (w : CmdWord) (s : State) :
    (s.withWord w).hostMem = s.hostMem := rfl

@[simp] theorem State.withWord_stream (w : CmdWord) (s : State) :
    (s.withWord w).stream = placeWord w s.CI s.stream := rfl

@[simp] theorem State.withWord_draws (w : CmdWord) (s : State) :
    (s.withWord w).draws = s.draws := rfl

/-! ### Readings -/

@[simp] theorem State.setCursor_slot (ch : Chan) (c : Slot) (s : State) (ch' : Chan) (i : Slot) :
    (s.setCursor ch c).slot ch' i = s.slot ch' i := rfl

@[simp] theorem State.setSlot_cursor (ch : Chan) (i : Slot) (v : Sample) (s : State) (ch' : Chan) :
    (s.setSlot ch i v).cursor ch' = s.cursor ch' := rfl

theorem State.setCursor_cursor (ch : Chan) (c : Slot) (s : State) (ch' : Chan) :
    (s.setCursor ch c).cursor ch' = if ch = ch' then c else s.cursor ch' := by
  simp [State.cursor, Vector.getElem_set, Fin.ext_iff]

theorem State.setSlot_slot (ch : Chan) (i : Slot) (v : Sample) (s : State) (ch' : Chan) (i' : Slot) :
    (s.setSlot ch i v).slot ch' i' = if ch = ch' ∧ i = i' then v else s.slot ch' i' := by
  by_cases hc : ch = ch'
  · subst hc
    simp [State.slot, Vector.getElem_set, Fin.ext_iff]
  · simp [State.slot, hc, Fin.val_ne_of_ne hc]

@[simp] theorem State.complete_slot (r : Option Int) (s : State) (ch : Chan) (i : Slot) :
    (s.complete r).slot ch i = s.slot ch i := rfl

@[simp] theorem State.complete_cursor (r : Option Int) (s : State) (ch : Chan) :
    (s.complete r).cursor ch = s.cursor ch := rfl

@[simp] theorem State.applyHost_nil (s : State) : s.applyHost [] = s := rfl

/-! ### Flow -/

@[simp] theorem Flow.bind_ok (s : State) (k : State → Flow) : (Flow.ok s).bind k = k s := rfl

@[simp] theorem Flow.bind_raised (s : State) (k : State → Flow) :
    (Flow.raised s).bind k = .raised s := rfl

theorem Flow.bind_assoc (f : Flow) (k l : State → Flow) :
    (f.bind k).bind l = f.bind fun s => (k s).bind l := by
  cases f <;> rfl

@[simp] theorem Flow.state_ok (s : State) : (Flow.ok s).state = s.complete none := rfl

@[simp] theorem Flow.state_raised (s : State) : (Flow.raised s).state = s := rfl

/-- Two states with the same fields are the same state. -/
theorem State.ext_fields {s t : State} (hH : s.H = t.H) (hC : s.CUR = t.CUR) (hL : s.LINE = t.LINE)
    (hX : s.TXINIT = t.TXINIT) (hF : s.FAULT = t.FAULT) (hK : s.FCODE = t.FCODE)
    (hT : s.TRACE = t.TRACE) (hI : s.CI = t.CI) (hR : s.responses = t.responses)
    (hP : s.params = t.params) (hM : s.hostMem = t.hostMem) (hS : s.stream = t.stream)
    (hD : s.draws = t.draws) : s = t := by
  cases s; cases t; simp_all

end Sys2Proof.Machine
end

