-- ==== Sys2Proof/Laws/Channel.lean ====
section
/-!
SUPPORT. What the channel operations do: the channel an operand names, the slots and the cursor after
a tick, and the mean of three slots.
-/

namespace Sys2Proof.Machine

/-! ### The channel operand -/

@[simp] theorem chanOf_zero : chanOf 0#2 = some 0 := by decide

@[simp] theorem chanOf_one : chanOf 1#2 = some 1 := by decide

@[simp] theorem chanOf_two : chanOf 2#2 = some 2 := by decide

@[simp] theorem chanOf_three : chanOf 3#2 = none := by decide

/-- A well-formed channel operand names the channel of its number (R53). -/
theorem chanOf_wellFormed {ch : BitVec 2} (h : chanWellFormed ch = true) :
    ∃ c : Chan, chanOf ch = some c ∧ c.val = ch.toNat := by
  revert h; revert ch; decide

/-- The channel of a given number (R53). -/
theorem chanOf_of_val {ch : BitVec 2} {c : Chan} (h : c.val = ch.toNat) : chanOf ch = some c := by
  have hlt : ch.toNat < NCH := h ▸ c.isLt
  simp only [chanOf, hlt, dite_true]
  exact congrArg some (Fin.ext h.symm)

theorem chanOf_eq_none {ch : BitVec 2} : chanOf ch = none ↔ ch = 3#2 := by
  revert ch; decide

/-! ### Slots and cursor after a tick -/

@[simp] theorem slotAfter_val (c : Slot) (k : Nat) : (slotAfter c k).val = (c.val + k) % 3 := rfl

theorem slot_lt (c : Slot) : c.val < 3 := c.isLt

/-- "the comparison never reads the slot being written" (R90 item 7). -/
theorem slotAfter_prev_ne (c : Slot) : slotAfter c PREV_OFFSET ≠ c := by
  revert c; decide

/-- The slot at the cursor after the decision (R87, R93). -/
def State.tickValue (s : State) (ch : Chan) (v : Sample) : Sample :=
  (offerWrites Config.nudgeFn s.params ch (s.prev ch) v).getD (s.slot ch (s.cursor ch))

theorem State.setSlot_self (ch : Chan) (i : Slot) (s : State) :
    s.setSlot ch i (s.slot ch i) = s := by
  simp [State.setSlot, State.slot]

/-- A tick as one write, of the old value where the slot is kept, and one cursor step (R83). -/
theorem State.offer_eq (ch : Chan) (v : Sample) (s : State) :
    s.offer ch v =
      (s.setSlot ch (s.cursor ch) (s.tickValue ch v)).setCursor ch (slotAfter (s.cursor ch) 1) := by
  unfold State.offer State.offerWith State.tickValue State.prev
  simp only
  cases offerWrites Config.nudgeFn s.params ch
    (s.slot ch (slotAfter (s.cursor ch) PREV_OFFSET)).toInt v with
  | none => simp [State.setSlot_self]
  | some x => rfl

theorem State.offer_slot (ch : Chan) (v : Sample) (s : State) (ch' : Chan) (i : Slot) :
    (s.offer ch v).slot ch' i =
      if ch = ch' ∧ s.cursor ch = i then s.tickValue ch v else s.slot ch' i := by
  rw [State.offer_eq, State.setCursor_slot, State.setSlot_slot]

theorem State.offer_cursor (ch : Chan) (v : Sample) (s : State) (ch' : Chan) :
    (s.offer ch v).cursor ch' = if ch = ch' then slotAfter (s.cursor ch) 1 else s.cursor ch' := by
  rw [State.offer_eq, State.setCursor_cursor, State.setSlot_cursor]

@[simp] theorem State.offer_LINE (ch : Chan) (v : Sample) (s : State) :
    (s.offer ch v).LINE = s.LINE := by
  rw [State.offer_eq]; rfl

@[simp] theorem State.offer_TXINIT (ch : Chan) (v : Sample) (s : State) :
    (s.offer ch v).TXINIT = s.TXINIT := by
  rw [State.offer_eq]; rfl

@[simp] theorem State.offer_FAULT (ch : Chan) (v : Sample) (s : State) :
    (s.offer ch v).FAULT = s.FAULT := by
  rw [State.offer_eq]; rfl

@[simp] theorem State.offer_FCODE (ch : Chan) (v : Sample) (s : State) :
    (s.offer ch v).FCODE = s.FCODE := by
  rw [State.offer_eq]; rfl

@[simp] theorem State.offer_TRACE (ch : Chan) (v : Sample) (s : State) :
    (s.offer ch v).TRACE = s.TRACE := by
  rw [State.offer_eq]; rfl

@[simp] theorem State.offer_CI (ch : Chan) (v : Sample) (s : State) :
    (s.offer ch v).CI = s.CI := by
  rw [State.offer_eq]; rfl

@[simp] theorem State.offer_responses (ch : Chan) (v : Sample) (s : State) :
    (s.offer ch v).responses = s.responses := by
  rw [State.offer_eq]; rfl

@[simp] theorem State.offer_params (ch : Chan) (v : Sample) (s : State) :
    (s.offer ch v).params = s.params := by
  rw [State.offer_eq]; rfl

@[simp] theorem State.offer_hostMem (ch : Chan) (v : Sample) (s : State) :
    (s.offer ch v).hostMem = s.hostMem := by
  rw [State.offer_eq]; rfl

@[simp] theorem State.offer_stream (ch : Chan) (v : Sample) (s : State) :
    (s.offer ch v).stream = s.stream := by
  rw [State.offer_eq]; rfl

@[simp] theorem State.offer_draws (ch : Chan) (v : Sample) (s : State) :
    (s.offer ch v).draws = s.draws := by
  rw [State.offer_eq]; rfl

/-! ### The decision -/

/-- The band test as R85 and R86 write it. -/
theorem bandAccepts_iff (prev v : Int) :
    bandAccepts prev v = true ↔ prev = 0 ∨ |v - prev| ≤ Int.tdiv prev 5 := by
  simp [bandAccepts, tdiv]

/-- The slot at the cursor after a tick under `Minimal` (R83). -/
theorem State.tickValue_minimal {s : State} (hp : s.params.POLICY = .minimal) (ch : Chan)
    (v : Sample) :
    s.tickValue ch v =
      if bandAccepts (s.prev ch) v.toInt then v else s.slot ch (s.cursor ch) := by
  simp only [State.tickValue, offerWrites, hp, minimalWrites]
  split <;> rfl

/-- A tick that keeps its slot leaves the history as it was (R87). -/
theorem State.offer_H_kept {ch : Chan} {v : Sample} {s : State}
    (h : s.tickValue ch v = s.slot ch (s.cursor ch)) : (s.offer ch v).H = s.H := by
  rw [State.offer_eq, State.setCursor_H, h, State.setSlot_self]

/-! ### The mean -/

/-- The sum of R96, slot by slot. -/
theorem State.slotSum_eq (s : State) (ch : Chan) :
    s.slotSum ch = (s.slot ch 0).toInt + (s.slot ch 1).toInt + (s.slot ch 2).toInt := by
  have h : s.H[ch.val].toList = [s.slot ch 0, s.slot ch 1, s.slot ch 2] := by
    apply List.ext_getElem
    · simp
    · intro k h1 h2
      simp only [List.length_cons, List.length_nil] at h2
      have hk : k = 0 ∨ k = 1 ∨ k = 2 := by omega
      rcases hk with rfl | rfl | rfl <;> simp [State.slot]
  rw [State.slotSum, h]
  simp [add_assoc]

/-- The mean depends on the slots of its channel alone (R98). -/
theorem State.mean_congr {s t : State} {ch : Chan} (h : ∀ i, s.slot ch i = t.slot ch i) :
    s.mean ch = t.mean ch := by
  simp only [State.mean, State.slotSum_eq, h]

end Sys2Proof.Machine
end

