-- ==== Sys2Proof/Laws/Decode.lean ====
section
/-!
SUPPORT. The fields of a command word: what each field of an assembled word holds, and that a word
with no reserved bit is its fields put together.
-/

namespace Sys2Proof

theorem cmdWord_getLsbD (op a : Byte) (v : BitVec 32) (k : Nat) :
    (cmdWord op a v).getLsbD k =
      if k < 32 then v.getLsbD k else if k < 48 then false
      else if k < 56 then a.getLsbD (k - 48) else op.getLsbD (k - 56) := by
  have h : (BitVec.append (BitVec.append (BitVec.append op a) (0#16)) v).getLsbD k = _ :=
    BitVec.getLsbD_append
  refine h.trans ?_
  split
  · rfl
  · refine (BitVec.getLsbD_append (x := op ++ a) (y := 0#16)).trans ?_
    by_cases h1 : k < 48
    · rw [if_pos (by omega), if_pos h1]; simp
    · rw [if_neg (by omega), if_neg h1, BitVec.getLsbD_append]
      split <;> split <;> first | omega | (congr 1)

@[simp] theorem opField_cmdWord (op a : Byte) (v : BitVec 32) : opField (cmdWord op a v) = op := by
  ext k hk
  have h : ¬ 56 + k < 32 ∧ ¬ 56 + k < 48 := by omega
  simp [opField, BitVec.getElem_extractLsb', cmdWord_getLsbD, BitVec.getLsbD_eq_getElem hk, h]

@[simp] theorem aField_cmdWord (op a : Byte) (v : BitVec 32) : aField (cmdWord op a v) = a := by
  ext k hk
  have h : ¬ 48 + k < 32 ∧ 48 + k < 56 := by omega
  simp [aField, BitVec.getElem_extractLsb', cmdWord_getLsbD, BitVec.getLsbD_eq_getElem hk, h]

@[simp] theorem vField_cmdWord (op a : Byte) (v : BitVec 32) : vField (cmdWord op a v) = v := by
  ext k hk
  simp [vField, BitVec.getElem_extractLsb', cmdWord_getLsbD, hk]

@[simp] theorem rsvdField_cmdWord (op a : Byte) (v : BitVec 32) :
    rsvdField (cmdWord op a v) = 0#16 := by
  ext k hk
  have h : ¬ 32 + k < 32 ∧ 32 + k < 48 := by omega
  simp [rsvdField, BitVec.getElem_extractLsb', cmdWord_getLsbD, h]

/-- A word with no reserved bit set is the word of its fields (R48). -/
theorem cmdWord_fields {w : CmdWord} (h : rsvdField w = 0#16) :
    cmdWord (opField w) (aField w) (vField w) = w := by
  apply BitVec.eq_of_getLsbD_eq
  intro k hk
  rw [cmdWord_getLsbD]
  split
  · simp [vField, *]
  · split
    · have hb := congrArg (BitVec.getLsbD · (k - 32)) h
      simp only [rsvdField, BitVec.getLsbD_extractLsb'] at hb
      rw [show 32 + (k - 32) = k by omega] at hb
      simpa [show k - 32 < 16 by omega] using hb.symm
    · split
      · simp only [aField, BitVec.getLsbD_extractLsb']
        rw [show 48 + (k - 48) = k by omega]
        simp; omega
      · simp only [opField, BitVec.getLsbD_extractLsb']
        rw [show 56 + (k - 56) = k by omega]
        simp; omega

/-- Two words agree where all four fields do. -/
theorem word_ext {w w' : CmdWord} (ho : opField w = opField w') (ha : aField w = aField w')
    (hr : rsvdField w = rsvdField w') (hv : vField w = vField w') : w = w' := by
  apply BitVec.eq_of_getLsbD_eq
  intro k hk
  by_cases h1 : k < 32
  · have hb := congrArg (BitVec.getLsbD · k) hv
    simpa [vField, h1] using hb
  · by_cases h2 : k < 48
    · have hb := congrArg (BitVec.getLsbD · (k - 32)) hr
      simp only [rsvdField, BitVec.getLsbD_extractLsb', show 32 + (k - 32) = k by omega] at hb
      simpa [show k - 32 < 16 by omega] using hb
    · by_cases h3 : k < 56
      · have hb := congrArg (BitVec.getLsbD · (k - 48)) ha
        simp only [aField, BitVec.getLsbD_extractLsb', show 48 + (k - 48) = k by omega] at hb
        simpa [show k - 48 < 8 by omega] using hb
      · have hb := congrArg (BitVec.getLsbD · (k - 56)) ho
        simp only [opField, BitVec.getLsbD_extractLsb', show 56 + (k - 56) = k by omega] at hb
        simpa [show k - 56 < 8 by omega] using hb

/-! ### Fields under a mask -/

theorem opField_and (w m : CmdWord) : opField (w &&& m) = opField w &&& opField m := by
  ext k hk; simp [opField]

theorem aField_and (w m : CmdWord) : aField (w &&& m) = aField w &&& aField m := by
  ext k hk; simp [aField]

theorem rsvdField_and (w m : CmdWord) : rsvdField (w &&& m) = rsvdField w &&& rsvdField m := by
  ext k hk; simp [rsvdField]

theorem vField_and (w m : CmdWord) : vField (w &&& m) = vField w &&& vField m := by
  ext k hk; simp [vField]

/-- A row accepts a word where each field does. -/
theorem Row.accepts_iff (r : Row) (w : CmdWord) :
    r.accepts w = true ↔
      opField w &&& opField r.mask = opField r.pattern ∧
      aField w &&& aField r.mask = aField r.pattern ∧
      rsvdField w &&& rsvdField r.mask = rsvdField r.pattern ∧
      vField w &&& vField r.mask = vField r.pattern := by
  simp only [Row.accepts, decide_eq_true_eq, ← opField_and, ← aField_and, ← rsvdField_and,
    ← vField_and]
  constructor
  · intro h; simp [h]
  · rintro ⟨ho, ha, hr, hv⟩; exact word_ext ho ha hr hv

/-! ### The channel operand -/

@[simp] theorem chanA_low (ch : BitVec 2) : (chanA ch).extractLsb' 0 2 = ch := by
  revert ch; decide

@[simp] theorem chanA_high (ch : BitVec 2) : (chanA ch).extractLsb' 2 6 = 0#6 := by
  revert ch; decide

theorem chanA_of_high {a : Byte} (h : a.extractLsb' 2 6 = 0#6) : chanA (a.extractLsb' 0 2) = a := by
  revert h; revert a; decide

/-- The two low bits of the `A` field are bits 49 to 48 of the word (R53). -/
theorem aField_low (w : CmdWord) : (aField w).extractLsb' 0 2 = w.extractLsb' 48 2 := by
  ext k hk
  simp [aField, BitVec.getElem_extractLsb', show k < 8 by omega]

/-- No word belongs to two rows of the table: no two patterns agree under both masks. -/
theorem table_rows_disjoint :
    table.Pairwise fun r r' => (r.pattern &&& r'.mask) ≠ (r'.pattern &&& r.mask) := by
  decide

end Sys2Proof
end

