-- ==== Sys2Proof/Laws/Memory.lean ====
section
/-!
SUPPORT. The laws of the host buffer: what a read finds after a change, and that every change keeps
the canonical form.
-/

namespace Sys2Proof.Machine

theorem HostMem.wf_nil : HostMem.wf [] := by simp [HostMem.wf]

theorem HostMem.wf_cons {x : Nat} {b : Byte} {m : HostMem} :
    HostMem.wf ((x, b) :: m) ↔ x < addrLimit ∧ (∀ c ∈ m, x < c.1) ∧ HostMem.wf m := by
  simp only [HostMem.wf, List.map_cons, List.pairwise_cons, List.mem_map, List.mem_cons,
    forall_exists_index, and_imp, forall_apply_eq_imp_iff₂, forall_eq_or_imp]
  tauto

/-- Placing a byte adds no address but its own. -/
theorem HostMem.mem_place {m : HostMem} {a : Nat} {b : Byte} {c : Host.Cell}
    (h : c ∈ m.place a b) : c = (a, b) ∨ c ∈ m := by
  induction m with
  | nil => simp_all [HostMem.place]
  | cons xc rest ih =>
    obtain ⟨x, c'⟩ := xc
    simp only [HostMem.place] at h
    split at h
    · simpa using h
    · split at h
      · rcases List.mem_cons.mp h with h | h <;> simp [h]
      · rcases List.mem_cons.mp h with h | h
        · simp [h]
        · rcases ih h with h | h <;> simp [h]

theorem HostMem.mem_unmap {m : HostMem} {a : Nat} {c : Host.Cell} (h : c ∈ m.unmap a) : c ∈ m := by
  induction m with
  | nil => simp [HostMem.unmap] at h
  | cons xc rest ih =>
    obtain ⟨x, c'⟩ := xc
    simp only [HostMem.unmap] at h
    split at h
    · exact List.mem_cons_of_mem _ h
    · rcases List.mem_cons.mp h with h | h
      · simp [h]
      · exact List.mem_cons_of_mem _ (ih h)

theorem HostMem.place_wf {m : HostMem} (hm : m.wf) {a : Nat} (ha : a < addrLimit) (b : Byte) :
    (m.place a b).wf := by
  induction m with
  | nil => exact HostMem.wf_cons.mpr ⟨ha, by simp, HostMem.wf_nil⟩
  | cons xc rest ih =>
    obtain ⟨x, c⟩ := xc
    obtain ⟨hx, hlt, hrest⟩ := HostMem.wf_cons.mp hm
    simp only [HostMem.place]
    split
    · rename_i hax
      refine HostMem.wf_cons.mpr ⟨ha, ?_, hm⟩
      intro d hd
      rcases List.mem_cons.mp hd with rfl | hd
      · exact hax
      · exact hax.trans (hlt d hd)
    · split
      · rename_i hax
        exact HostMem.wf_cons.mpr ⟨ha, fun d hd => hax ▸ hlt d hd, hrest⟩
      · refine HostMem.wf_cons.mpr ⟨hx, ?_, ih hrest⟩
        intro d hd
        rcases HostMem.mem_place hd with rfl | hd
        · simp only; omega
        · exact hlt d hd

theorem HostMem.unmap_wf {m : HostMem} (hm : m.wf) (a : Nat) : (m.unmap a).wf := by
  induction m with
  | nil => exact HostMem.wf_nil
  | cons xc rest ih =>
    obtain ⟨x, c⟩ := xc
    obtain ⟨hx, hlt, hrest⟩ := HostMem.wf_cons.mp hm
    simp only [HostMem.unmap]
    split
    · exact hrest
    · exact HostMem.wf_cons.mpr ⟨hx, fun d hd => hlt d (HostMem.mem_unmap hd), ih hrest⟩

theorem HostMem.apply_wf {m : HostMem} (hm : m.wf) (w : HostWrite) : (m.apply w).wf := by
  unfold HostMem.apply
  split
  · exact HostMem.place_wf hm w.addr.isLt _
  · exact HostMem.unmap_wf hm _

/-- The host's turn keeps the canonical form (assumption log 9, log 10). -/
theorem State.applyHost_wf {s : State} (hm : s.hostMem.wf) (ws : List HostWrite) :
    (s.applyHost ws).hostMem.wf := by
  rw [State.applyHost_hostMem]
  induction ws generalizing s with
  | nil => exact hm
  | cons w ws ih => exact ih (s := { s with hostMem := s.hostMem.apply w }) (HostMem.apply_wf hm w)

/-- An address below every listed one is unmapped. -/
theorem HostMem.read_eq_none {m : HostMem} {a : Nat} (h : ∀ c ∈ m, a < c.1) : m.read a = none := by
  induction m with
  | nil => rfl
  | cons xc rest ih =>
    obtain ⟨x, c⟩ := xc
    have hx : a < x := h _ List.mem_cons_self
    rw [HostMem.read, if_neg (by omega)]
    exact ih fun d hd => h d (List.mem_cons_of_mem _ hd)

theorem State.memRead_of_ge {s : State} {a : Nat} (h : addrLimit ≤ a) : s.memRead a = none := by
  simp [State.memRead, Nat.not_lt.mpr h]

theorem State.memRead_lt {s : State} {a : Nat} {b : Byte} (h : s.memRead a = some b) :
    a < addrLimit := by
  unfold State.memRead at h
  split at h
  · assumption
  · cases h

/-- `MemRead` depends on the host buffer alone. -/
theorem State.memRead_congr {s t : State} (h : s.hostMem = t.hostMem) (a : Nat) :
    s.memRead a = t.memRead a := by
  simp [State.memRead, h]

end Sys2Proof.Machine
end

