-- ==== Sys2Proof/Laws/PerInstr.lean ====
section
/-!
SUPPORT. Statements made for every command, one lemma per constructor. The family `TableRow` says that
the word of a command belongs to the command's own row of opcode_table.json.
-/

namespace Sys2Proof.Laws.TableRow

open Sys2Proof

/-- The word of `i` has no reserved bit (R51) and belongs to the row of its mnemonic (R54, R55). -/
def Statement (i : Instr) : Prop :=
  rsvdField (encode i) = 0#16 ∧ ∃ r ∈ table, r.mnemonic = mnemonicOf i ∧ r.accepts (encode i) = true

theorem init : Statement .init :=
  ⟨rfl, _, List.mem_cons_self, rfl, by decide⟩

theorem wrbyte (c : Byte) : Statement (.wrbyte c) := by
  refine ⟨by simp [encode], table[1], by simp [table], rfl, ?_⟩
  rw [Row.accepts_iff]
  simp only [encode, opField_cmdWord, aField_cmdWord, rsvdField_cmdWord, vField_cmdWord]
  refine ⟨by decide, ?_, by decide, by decide⟩
  exact BitVec.and_zero

theorem wrstr (addr : Addr) : Statement (.wrstr addr) := by
  refine ⟨by simp [encode], table[2], by simp [table], rfl, ?_⟩
  rw [Row.accepts_iff]
  simp only [encode, opField_cmdWord, aField_cmdWord, rsvdField_cmdWord, vField_cmdWord]
  refine ⟨by decide, by decide, by decide, ?_⟩
  exact BitVec.and_zero

theorem wrint (value : Sample) (width : Byte) : Statement (.wrint value width) := by
  refine ⟨by simp [encode], table[3], by simp [table], rfl, ?_⟩
  rw [Row.accepts_iff]
  simp only [encode, opField_cmdWord, aField_cmdWord, rsvdField_cmdWord, vField_cmdWord]
  exact ⟨by decide, BitVec.and_zero, by decide, BitVec.and_zero⟩

theorem offer (ch : BitVec 2) (value : Sample) : Statement (.offer ch value) := by
  refine ⟨by simp [encode], table[4], by simp [table], rfl, ?_⟩
  rw [Row.accepts_iff]
  simp only [encode, opField_cmdWord, aField_cmdWord, rsvdField_cmdWord, vField_cmdWord]
  refine ⟨by decide, ?_, by decide, BitVec.and_zero⟩
  revert ch; decide

theorem avg (ch : BitVec 2) : Statement (.avg ch) := by
  refine ⟨by simp [encode], table[5], by simp [table], rfl, ?_⟩
  rw [Row.accepts_iff]
  simp only [encode, opField_cmdWord, aField_cmdWord, rsvdField_cmdWord, vField_cmdWord]
  refine ⟨by decide, ?_, by decide, by decide⟩
  revert ch; decide

theorem report : Statement .report :=
  ⟨rfl, table[6], by simp [table], rfl, by decide⟩

end Sys2Proof.Laws.TableRow
end

