-- ==== Sys2Proof/Laws/Transmit.lean ====
section
/-!
SUPPORT. What sending does: one lemma per shared operation of the transmitter. Everything is bit
slots one after the other (`transmit_eq_bitSlots`), and bit slots either all pass
(`bitSlots_ok`) or stop at the first disturbed `Wait` (`bitSlots_raised`).
-/

namespace Sys2Proof.Machine

/-! ### Levels and events -/

@[simp] theorem frameLevels_length (c : Byte) : (frameLevels c).length = 10 := by
  simp [frameLevels]

@[simp] theorem slotEvents_nil (T : Nat) : slotEvents T [] = [] := rfl

@[simp] theorem slotEvents_cons (T : Nat) (b : Bool) (bs : List Bool) :
    slotEvents T (b :: bs) = .level b :: .delay T :: slotEvents T bs := rfl

@[simp] theorem slotEvents_append (T : Nat) (bs cs : List Bool) :
    slotEvents T (bs ++ cs) = slotEvents T bs ++ slotEvents T cs := by
  simp [slotEvents]

@[simp] theorem slotEvents_length (T : Nat) (bs : List Bool) :
    (slotEvents T bs).length = 2 * bs.length := by
  induction bs with
  | nil => rfl
  | cons b bs ih => simp [ih]; omega

@[simp] theorem messageEvents_nil (T : Nat) : messageEvents T [] = [] := rfl

@[simp] theorem messageEvents_cons (T : Nat) (b : Byte) (bs : List Byte) :
    messageEvents T (b :: bs) = frameEvents T b ++ messageEvents T bs := rfl

/-- The levels of a message: those of its frames, with nothing between two frames (R72). -/
def messageLevels (bytes : List Byte) : List Bool := bytes.flatMap frameLevels

theorem messageEvents_eq (T : Nat) (bytes : List Byte) :
    messageEvents T bytes = slotEvents T (messageLevels bytes) := by
  induction bytes with
  | nil => rfl
  | cons b bs ih => simp [messageLevels, frameEvents, ih]

@[simp] theorem messageLevels_length (bytes : List Byte) :
    (messageLevels bytes).length = 10 * bytes.length := by
  induction bytes with
  | nil => rfl
  | cons b bs ih =>
    have : messageLevels (b :: bs) = frameLevels b ++ messageLevels bs := rfl
    simp [this, ih]; omega

/-! ### Durations and the line a trace leaves -/

@[simp] theorem duration_append (es fs : List Event) :
    duration (es ++ fs) = duration es + duration fs := by
  simp [duration]

theorem duration_slotEvents (T : Nat) (bs : List Bool) :
    duration (slotEvents T bs) = bs.length * T := by
  induction bs with
  | nil => simp [duration]
  | cons b bs ih =>
    have : duration (.level b :: .delay T :: slotEvents T bs) = T + duration (slotEvents T bs) := by
      simp [duration, Event.time]
    rw [slotEvents_cons, this, ih, List.length_cons]; ring

theorem lineOf_append (es fs : List Event) :
    lineOf (es ++ fs) = fs.foldl Line.after (lineOf es) := by
  rw [lineOf, lineOf, List.foldl_append]

theorem lineOf_snoc_level (es : List Event) (b : Bool) : lineOf (es ++ [.level b]) = Line.ofBit b := by
  rw [lineOf_append]; rfl

/-! ### One bit slot, and bit slots in a row -/

theorem State.Undisturbed.mono {s : State} {j k : Nat} (hjk : j ≤ k) (h : s.Undisturbed k) :
    s.Undisturbed j :=
  fun e he => h e ((List.take_sublist_take_left hjk).subset he)

theorem State.NoPreempt.undisturbed {s : State} (h : s.NoPreempt) (k : Nat) : s.Undisturbed k :=
  fun e he => h e (List.mem_of_mem_take he)

/-- The state after one undisturbed bit slot. -/
def State.afterSlot (b : Bool) (s : State) : State :=
  { s with
    LINE := Line.ofBit b
    TRACE := s.TRACE ++ [.level b, .delay s.bitPeriod]
    draws := s.draws.drop 1 }

/-- A bit slot whose `Wait` is undisturbed (R63, R64). -/
theorem State.bitSlot_ok {s : State} (h : s.Undisturbed 1) (b : Bool) :
    s.bitSlot b = .ok (s.afterSlot b) := by
  unfold State.bitSlot State.wait
  simp only [State.setPin_draws]
  split
  · rename_i hd
    simp [State.afterSlot, State.setPin, State.emit, hd]
  · rename_i e rest hd
    have he : e.disturbs = false := h e (by simp [hd])
    simp [State.afterSlot, State.setPin, State.emit, hd, he]

/-- A bit slot whose `Wait` is disturbed: the level stands, no delay is emitted (R116). -/
theorem State.bitSlot_raised {s : State} {e : Draw} {rest : List Draw} (hd : s.draws = e :: rest)
    (he : e.disturbs = true) (b : Bool) :
    s.bitSlot b = .raised { s with
      LINE := Line.ofBit b
      TRACE := s.TRACE ++ [.level b]
      draws := rest
      FAULT := true
      FCODE := .preempt } := by
  simp [State.bitSlot, State.wait, State.setPin, State.emit, State.raise, hd, he]

/-- The state after undisturbed bit slots. -/
def State.afterSlots (bs : List Bool) (s : State) : State :=
  { s with
    LINE := (bs.getLast?.map Line.ofBit).getD s.LINE
    TRACE := s.TRACE ++ slotEvents s.bitPeriod bs
    draws := s.draws.drop bs.length }

theorem State.afterSlots_cons (b : Bool) (bs : List Bool) (s : State) :
    (s.afterSlot b).afterSlots bs = s.afterSlots (b :: bs) := by
  cases bs with
  | nil => simp [State.afterSlots, State.afterSlot]
  | cons c cs =>
    have hlast : ∃ x, (c :: cs).getLast? = some x := ⟨_, List.getLast?_eq_some_getLast (by simp)⟩
    obtain ⟨x, hx⟩ := hlast
    simp only [State.afterSlots, State.afterSlot, State.bitPeriod, hx, List.getLast?_cons_cons]
    simp [Nat.add_comm]

/-- Bit slots none of whose `Wait`s is disturbed. -/
theorem State.bitSlots_ok {bs : List Bool} {s : State} (h : s.Undisturbed bs.length) :
    s.bitSlots bs = .ok (s.afterSlots bs) := by
  induction bs generalizing s with
  | nil => simp [State.bitSlots, State.afterSlots]
  | cons b bs ih =>
    rw [State.bitSlots, State.bitSlot_ok (h.mono (by simp)), Flow.bind_ok, ih, State.afterSlots_cons]
    intro e he
    apply h e
    simp only [State.afterSlot] at he
    rw [List.length_cons, Nat.add_comm, List.take_add]
    exact List.mem_append_right _ he

/-- Bit slots one after the other are the bit slots of the two lists (R72). -/
theorem State.bitSlots_append (bs cs : List Bool) (s : State) :
    s.bitSlots (bs ++ cs) = (s.bitSlots bs).bind (State.bitSlots cs) := by
  induction bs generalizing s with
  | nil => rfl
  | cons b bs ih =>
    rw [List.cons_append, State.bitSlots, State.bitSlots, Flow.bind_assoc]
    congr 1
    funext t
    exact ih t

/-- The state in which bit slots are broken off in the slot of level `b`, after the slots `pre`: the
level stands, its delay is not emitted, and `F_PREEMPT` is recorded (R111, R116). -/
def State.brokenOff (pre : List Bool) (b : Bool) (rest : List Draw) (s : State) : State :=
  { s with
    LINE := Line.ofBit b
    TRACE := s.TRACE ++ (slotEvents s.bitPeriod pre ++ [.level b])
    draws := rest
    FAULT := true
    FCODE := .preempt }

/-- Bit slots of which `pre` pass and the next `Wait` is disturbed (R111, R116). -/
theorem State.bitSlots_raised {pre post : List Bool} {b : Bool} {s : State} {ds rest : List Draw}
    {e : Draw} (hd : s.draws = ds ++ e :: rest) (hlen : ds.length = pre.length)
    (hds : ∀ d ∈ ds, d.disturbs = false) (he : e.disturbs = true) :
    s.bitSlots (pre ++ b :: post) = .raised (s.brokenOff pre b rest) := by
  have hu : s.Undisturbed pre.length := by
    intro d hmem
    rw [hd, ← hlen, List.take_left'] at hmem
    · exact hds d hmem
    · rfl
  have hdraw : (s.afterSlots pre).draws = e :: rest := by
    simp [State.afterSlots, hd, ← hlen]
  rw [State.bitSlots_append, State.bitSlots_ok hu, Flow.bind_ok, State.bitSlots,
    State.bitSlot_raised hdraw he, Flow.bind_raised]
  simp [State.afterSlots, State.brokenOff, State.bitPeriod]

/-- A list of draws has no disturbance among its first `k`, or a first one before position `k`. -/
theorem draws_cases (ds : List Draw) (k : Nat) :
    (∀ e ∈ ds.take k, e.disturbs = false) ∨
    ∃ pre e post, ds = pre ++ e :: post ∧ pre.length < k ∧ (∀ d ∈ pre, d.disturbs = false) ∧
      e.disturbs = true := by
  induction k generalizing ds with
  | zero => exact .inl (by simp)
  | succ k ih =>
    cases ds with
    | nil => exact .inl (by simp)
    | cons d ds =>
      by_cases hdist : d.disturbs = true
      · exact .inr ⟨[], d, ds, rfl, by simp, by simp, hdist⟩
      · have hd : d.disturbs = false := by simpa using hdist
        rcases ih ds with h | ⟨pre, e, post, rfl, hlen, hpre, he⟩
        · exact .inl (by simpa [hd] using h)
        · exact .inr ⟨d :: pre, e, post, rfl, by simpa using hlen, by simpa [hd] using hpre, he⟩

/-- Everything bit slots can do: all pass, or the first disturbed `Wait` ends them. -/
theorem State.bitSlots_cases (bs : List Bool) (s : State) :
    (s.Undisturbed bs.length ∧ s.bitSlots bs = .ok (s.afterSlots bs)) ∨
    ∃ pre b post rest, bs = pre ++ b :: post ∧ ¬ s.NoPreempt ∧
      s.bitSlots bs = .raised (s.brokenOff pre b rest) := by
  rcases draws_cases s.draws bs.length with h | ⟨ds, e, rest, hd, hlen, hds, he⟩
  · exact .inl ⟨h, State.bitSlots_ok h⟩
  · right
    have hsplit : bs = bs.take ds.length ++ bs[ds.length] :: bs.drop (ds.length + 1) := by
      simp
    have hp : ¬ s.NoPreempt := fun hn => by
      have hfalse := hn e (by simp [hd])
      simp [he] at hfalse
    refine ⟨_, _, _, rest, hsplit, hp, ?_⟩
    conv_lhs => rw [hsplit]
    exact State.bitSlots_raised hd (by simp; omega) hds he

/-! ### Frames and messages -/

/-- A message is the bit slots of its frames (R69, R72). -/
theorem State.transmit_eq_bitSlots (bytes : List Byte) (s : State) :
    s.transmit bytes = s.bitSlots (messageLevels bytes) := by
  induction bytes generalizing s with
  | nil => rfl
  | cons b bs ih =>
    have : messageLevels (b :: bs) = frameLevels b ++ messageLevels bs := rfl
    rw [this, State.bitSlots_append, State.transmit, State.frame]
    congr 1
    funext t
    exact ih t

theorem State.frame_eq_transmit (c : Byte) (s : State) : s.frame c = s.transmit [c] := by
  rw [State.transmit]
  cases s.frame c <;> rfl

theorem State.transmit_append (bs cs : List Byte) (s : State) :
    s.transmit (bs ++ cs) = (s.transmit bs).bind (State.transmit cs) := by
  induction bs generalizing s with
  | nil => rfl
  | cons b bs ih =>
    rw [List.cons_append, State.transmit, State.transmit, Flow.bind_assoc]
    congr 1
    funext t
    exact ih t

/-- The last bit slot of a message is a stop bit: mark (R71). -/
theorem messageLevels_getLast? (bytes : List Byte) :
    (messageLevels bytes).getLast? = if bytes = [] then none else some true := by
  induction bytes with
  | nil => rfl
  | cons b bs ih =>
    have h : messageLevels (b :: bs) = frameLevels b ++ messageLevels bs := rfl
    rw [h, List.getLast?_append, ih]
    by_cases hb : bs = []
    · simp [hb, frameLevels, List.getLast?_cons]
    · simp [hb]

/-- The line after bit slots: at the last level (R63). -/
theorem lineOf_slotEvents (es : List Event) (T : Nat) (bs : List Bool) :
    lineOf (es ++ slotEvents T bs) = (bs.getLast?.map Line.ofBit).getD (lineOf es) := by
  rcases List.eq_nil_or_concat bs with rfl | ⟨cs, b, rfl⟩
  · simp
  · simp [lineOf_append, Line.after]

/-- The line after a message: at mark (R71). -/
theorem lineOf_messageEvents (es : List Event) (T : Nat) (bytes : List Byte) :
    lineOf (es ++ messageEvents T bytes) = if bytes = [] then lineOf es else .mark := by
  rw [messageEvents_eq, lineOf_slotEvents, messageLevels_getLast?]
  split <;> rfl

/-- The state after an undisturbed message. -/
def State.afterMessage (bytes : List Byte) (s : State) : State :=
  { s with
    LINE := if bytes = [] then s.LINE else .mark
    TRACE := s.TRACE ++ messageEvents s.bitPeriod bytes
    draws := s.draws.drop (10 * bytes.length) }

theorem State.afterSlots_messageLevels (bytes : List Byte) (s : State) :
    s.afterSlots (messageLevels bytes) = s.afterMessage bytes := by
  unfold State.afterSlots State.afterMessage
  rw [messageLevels_getLast?, messageLevels_length, messageEvents_eq]
  by_cases h : bytes = [] <;> simp [h, Line.ofBit]

/-- An undisturbed message (R69, R71, R72). -/
theorem State.transmit_ok {bytes : List Byte} {s : State} (h : s.Undisturbed (10 * bytes.length)) :
    s.transmit bytes = .ok (s.afterMessage bytes) := by
  rw [State.transmit_eq_bitSlots, State.bitSlots_ok (by simpa using h),
    State.afterSlots_messageLevels]

/-- Everything a message can do: it passes whole, or the first disturbed `Wait` ends it (R116). -/
theorem State.transmit_cases (bytes : List Byte) (s : State) :
    (s.Undisturbed (10 * bytes.length) ∧ s.transmit bytes = .ok (s.afterMessage bytes)) ∨
    ∃ pre b post rest, messageLevels bytes = pre ++ b :: post ∧ ¬ s.NoPreempt ∧
      s.transmit bytes = .raised (s.brokenOff pre b rest) := by
  rw [State.transmit_eq_bitSlots]
  rcases State.bitSlots_cases (messageLevels bytes) s with ⟨hu, h⟩ | h
  · left
    refine ⟨by simpa using hu, ?_⟩
    rw [h, State.afterSlots_messageLevels]
  · exact .inr h

/-! ### Strings -/

theorem State.transmit_hostMem_ok {bytes : List Byte} {s t : State}
    (h : s.transmit bytes = .ok t) : t.hostMem = s.hostMem := by
  rcases State.transmit_cases bytes s with ⟨-, h'⟩ | ⟨_, _, _, _, -, -, h'⟩
  · rw [h] at h'; cases h'; rfl
  · rw [h] at h'; cases h'

theorem State.BufHolds.congr {s t : State} (h : s.hostMem = t.hostMem) {a : Nat} {bytes : List Byte}
    (hb : s.BufHolds a bytes) : t.BufHolds a bytes := by
  induction bytes generalizing a with
  | nil => trivial
  | cons b bs ih => exact ⟨State.memRead_congr h a ▸ hb.1, hb.2.1, ih hb.2.2⟩

/-- The loop of WRSTR starts with room for every address up to the limit (R39). -/
theorem addr_room (addr : Addr) : addrOf addr + (addrLimit - addrOf addr) = addrLimit := by
  have h : addrOf addr < addrLimit := addr.isLt
  omega

/-- Bytes that are in the buffer end at the limit at the latest. -/
theorem State.BufHolds.end_le {s : State} {a : Nat} {bytes : List Byte} (h : s.BufHolds a bytes)
    (ha : a ≤ addrLimit) : a + bytes.length ≤ addrLimit := by
  induction bytes generalizing a with
  | nil => simpa using ha
  | cons b bs ih =>
    have hlt := State.memRead_lt h.1
    have hle := ih (a := a + 1) h.2.2 (by omega)
    simp only [List.length_cons]
    omega

/-- WRSTR's loop over bytes that are in the buffer sends them, and goes on behind them (R73). -/
theorem State.sendString_holds {bytes : List Byte} {room a : Nat} {s : State}
    (hb : s.BufHolds a bytes) (hroom : a + room = addrLimit) :
    s.sendString room a =
      (s.transmit bytes).bind (State.sendString (room - bytes.length) (a + bytes.length)) := by
  induction bytes generalizing room a s with
  | nil => rfl
  | cons b bs ih =>
    obtain ⟨hread, hne, hrest⟩ := hb
    have hlt := State.memRead_lt hread
    obtain ⟨room, rfl⟩ : ∃ r, room = r + 1 := ⟨room - 1, by omega⟩
    rw [State.sendString, hread]
    simp only [hne, if_false]
    rw [State.transmit, Flow.bind_assoc]
    cases hf : s.frame b with
    | raised t => rfl
    | ok t =>
      have hmem : s.hostMem = t.hostMem := by
        rw [State.frame_eq_transmit] at hf
        exact (State.transmit_hostMem_ok hf).symm
      simp only [Flow.bind_ok]
      rw [ih (hrest.congr hmem) (by omega)]
      simp only [List.length_cons]
      congr 2 <;> omega

/-- WRSTR's loop at an address that holds no byte (R115, R39). -/
theorem State.sendString_bad {room a : Nat} {s : State} (h : s.memRead a = none) :
    s.sendString room a = .raised (s.raise .badAddr) := by
  cases room with
  | zero => rfl
  | succ room => rw [State.sendString, h]

/-- WRSTR's loop at the terminator (R73). -/
theorem State.sendString_term {room a : Nat} {s : State} (h : s.memRead a = some TERM)
    (hroom : a + room = addrLimit) : s.sendString room a = .ok s := by
  have hlt := State.memRead_lt h
  obtain ⟨room, rfl⟩ : ∃ r, room = r + 1 := ⟨room - 1, by omega⟩
  rw [State.sendString, h]
  simp

/-- The string at an address: its bytes end at a terminator, or at an address that holds no byte
(R73: the loop ends). -/
theorem State.string_cases (s : State) {room a : Nat} (hroom : a + room = addrLimit) :
    ∃ bytes, s.BufHolds a bytes ∧
      (s.memRead (a + bytes.length) = some TERM ∨ s.memRead (a + bytes.length) = none) := by
  induction room generalizing a with
  | zero => exact ⟨[], trivial, .inr (State.memRead_of_ge (by simp; omega))⟩
  | succ room ih =>
    cases hr : s.memRead a with
    | none => exact ⟨[], trivial, .inr hr⟩
    | some b =>
      by_cases hb : b = TERM
      · exact ⟨[], trivial, .inl (by simpa [hb] using hr)⟩
      · obtain ⟨bytes, hold, hend⟩ := ih (a := a + 1) (by omega)
        refine ⟨b :: bytes, ⟨hr, hb, hold⟩, ?_⟩
        simpa [Nat.add_assoc, Nat.add_comm, Nat.add_left_comm] using hend

/-- Everything WRSTR's loop can do: it sends a terminated string, or it sends the bytes before an
address that holds none and raises `F_BADADDR`, or a disturbed `Wait` ends it. -/
theorem State.sendString_cases {room a : Nat} (s : State) (hroom : a + room = addrLimit) :
    ∃ bytes, s.BufHolds a bytes ∧
      ((s.memRead (a + bytes.length) = some TERM ∧ s.Undisturbed (10 * bytes.length) ∧
          s.sendString room a = .ok (s.afterMessage bytes)) ∨
        (s.memRead (a + bytes.length) = none ∧ s.Undisturbed (10 * bytes.length) ∧
          s.sendString room a = .raised ((s.afterMessage bytes).raise .badAddr)) ∨
        ∃ pre b post rest, messageLevels bytes = pre ++ b :: post ∧ ¬ s.NoPreempt ∧
          s.sendString room a = .raised (s.brokenOff pre b rest)) := by
  obtain ⟨bytes, hold, hend⟩ := s.string_cases hroom
  refine ⟨bytes, hold, ?_⟩
  have hle : a + bytes.length ≤ addrLimit := hold.end_le (by omega)
  rw [State.sendString_holds hold hroom]
  rcases State.transmit_cases bytes s with ⟨hu, h⟩ | ⟨pre, b, post, rest, hlev, hp, h⟩
  · rw [h, Flow.bind_ok]
    have hmem : s.hostMem = (s.afterMessage bytes).hostMem := rfl
    rw [State.memRead_congr hmem] at hend ⊢
    rcases hend with hend | hend
    · exact .inl ⟨hend, hu, State.sendString_term hend (by omega)⟩
    · exact .inr (.inl ⟨hend, hu, State.sendString_bad hend⟩)
  · exact .inr (.inr ⟨pre, b, post, rest, hlev, hp, by rw [h, Flow.bind_raised]⟩)

end Sys2Proof.Machine
end

