-- ==== Sys2Proof/Laws/Render.lean ====
section
/-!
SUPPORT. The decimal rendering and its padding: digits, lengths, and that a rendering is never empty.
-/

namespace Sys2Proof.Machine

theorem digitsAux_of_lt {m : Nat} (h : m < 10) (fuel : Nat) : digitsAux fuel m = [m] := by
  cases fuel with
  | zero => simp [digitsAux, Nat.mod_eq_of_lt h]
  | succ fuel => simp [digitsAux, h]

theorem digitsAux_ne_nil (fuel m : Nat) : digitsAux fuel m ≠ [] := by
  cases fuel with
  | zero => simp [digitsAux]
  | succ fuel => rw [digitsAux]; split <;> simp

/-- With as much fuel as its number, the digits are those of R75: the last digit behind those of the
tenth. -/
theorem digitsAux_step {m : Nat} (h : 10 ≤ m) {fuel : Nat} (hf : m ≤ fuel) :
    digitsAux fuel m = digitsAux (fuel - 1) (m / 10) ++ [m % 10] := by
  obtain ⟨fuel, rfl⟩ : ∃ k, fuel = k + 1 := ⟨fuel - 1, by omega⟩
  rw [digitsAux, if_neg (by omega)]
  rfl

theorem digitsAux_lt_ten (fuel m : Nat) : ∀ d ∈ digitsAux fuel m, d < 10 := by
  induction fuel generalizing m with
  | zero => simp [digitsAux]; omega
  | succ fuel ih =>
    intro d hd
    rw [digitsAux] at hd
    split at hd
    · simp_all
    · rcases List.mem_append.mp hd with hd | hd
      · exact ih _ d hd
      · simp at hd; omega

theorem dec_ne_nil (v : Int) : dec v ≠ [] := by
  have h : digits v.natAbs ≠ [] := digitsAux_ne_nil _ _
  unfold dec
  simp only
  split
  · simp
  · split <;> simp [h]

theorem pad_ne_nil (v : Int) (width : Nat) : pad v width ≠ [] := by
  have h := dec_ne_nil v
  unfold pad
  simp only
  split <;> simp [h]

theorem reportMessage_ne_nil (s : State) : s.reportMessage ≠ [] := by
  simp [State.reportMessage]

end Sys2Proof.Machine
end

