-- ==== Sys2Proof/Laws/Step.lean ====
section
/-!
SUPPORT. What a command and a step can do, said once: every command answers a next state, of one of
the forms of `Effect`, and a step is a fault, the end of the stream, an illegal word or a command.
-/

namespace Sys2Proof.Machine

/-- The states in which the command `i` can leave `s`. -/
inductive Effect (s : State) : Instr → State → Prop
  /-- INIT (R67). -/
  | configured : Effect s .init
      ({ s with LINE := .mark, TRACE := s.TRACE ++ [Event.pinOut, Event.level true], TXINIT := true }.complete
        none)
  /-- A transmitting command before INIT (R114). -/
  | unready {i : Instr} : transmits i = true → s.TXINIT = false → Effect s i (s.raise .noInit)
  /-- A message sent whole (R69). -/
  | sent {i : Instr} (bytes : List Byte) : transmits i = true → s.TXINIT = true →
      s.Undisturbed (10 * bytes.length) → Effect s i ((s.afterMessage bytes).complete none)
  /-- A string that runs out of the buffer (R115). -/
  | ranOut (addr : Addr) (bytes : List Byte) : s.TXINIT = true →
      s.BufHolds (addrOf addr) bytes → s.memRead (addrOf addr + bytes.length) = none →
      Effect s (.wrstr addr) ((s.afterMessage bytes).raise .badAddr)
  /-- A message broken off by a disturbed `Wait` (R116). -/
  | broken {i : Instr} (pre : List Bool) (b : Bool) (rest : List Draw) : transmits i = true →
      s.TXINIT = true → ¬ s.NoPreempt → Effect s i (s.brokenOff pre b rest)
  /-- OFFER (R83). -/
  | offered (ch : BitVec 2) (c : Chan) (v : Sample) : chanOf ch = some c →
      Effect s (.offer ch v) ((s.offer c v).complete none)
  /-- AVG (R96). -/
  | averaged (ch : BitVec 2) (c : Chan) : chanOf ch = some c →
      Effect s (.avg ch) (s.complete (some (s.mean c)))
  /-- OFFER of channel 3 (assumption log 12). -/
  | offeredNone (v : Sample) : Effect s (.offer 3#2 v) (s.raise .illegal)
  /-- AVG of channel 3 (assumption log 12). -/
  | averagedNone : Effect s (.avg 3#2) (s.raise .illegal)

theorem Effect.ofTransmit (s : State) {i : Instr} (hi : transmits i = true) (bytes : List Byte) :
    Effect s i (s.requireInit (State.transmit bytes)).state := by
  unfold State.requireInit
  by_cases hx : s.TXINIT = true
  · rw [if_pos hx]
    rcases State.transmit_cases bytes s with ⟨hu, h⟩ | ⟨pre, b, post, rest, -, hp, h⟩
    · rw [h]; exact .sent bytes hi hx hu
    · rw [h]; exact .broken pre b rest hi hx hp
  · rw [if_neg hx]
    exact .unready hi (by simpa using hx)

/-- Everything a command can do: it always answers a next state. -/
theorem exec_effect (i : Instr) (s : State) : ∃ t, exec i s = .next t ∧ Effect s i t := by
  cases i with
  | init =>
    refine ⟨_, rfl, ?_⟩
    have h : ((s.emit .pinOut).setPin true).TRACE = s.TRACE ++ [Event.pinOut, Event.level true] := by
      simp
    have hc := Effect.configured (s := s)
    rw [← h] at hc
    exact hc
  | wrbyte c =>
    refine ⟨_, rfl, ?_⟩
    have h : State.frame c = State.transmit [c] := funext (State.frame_eq_transmit c)
    rw [h]
    exact Effect.ofTransmit s rfl _
  | wrstr addr =>
    refine ⟨_, rfl, ?_⟩
    unfold State.requireInit
    by_cases hx : s.TXINIT = true
    · rw [if_pos hx]
      obtain ⟨bytes, hold, ⟨-, hu, h⟩ | ⟨hend, -, h⟩ | ⟨pre, b, post, rest, -, hp, h⟩⟩ :=
        s.sendString_cases (addr_room addr)
      · rw [h]; exact .sent bytes rfl hx hu
      · rw [h]; exact .ranOut addr bytes hx hold hend
      · rw [h]; exact .broken pre b rest rfl hx hp
    · rw [if_neg hx]
      exact .unready rfl (by simpa using hx)
  | wrint value width => exact ⟨_, rfl, Effect.ofTransmit s rfl _⟩
  | offer ch value =>
    refine ⟨_, rfl, ?_⟩
    cases hc : chanOf ch with
    | none => rw [chanOf_eq_none.mp hc]; exact .offeredNone value
    | some c => exact .offered ch c value hc
  | avg ch =>
    refine ⟨_, rfl, ?_⟩
    cases hc : chanOf ch with
    | none => rw [chanOf_eq_none.mp hc]; exact .averagedNone
    | some c => exact .averaged ch c hc
  | report => exact ⟨_, rfl, Effect.ofTransmit s rfl _⟩

/-- The form of a command that answered a next state. -/
theorem exec_next {i : Instr} {s t : State} (h : exec i s = .next t) : Effect s i t := by
  obtain ⟨t', h', he⟩ := exec_effect i s
  rw [h] at h'
  cases h'
  exact he

/-- Everything a step that answers a next state did: the block was not faulted, a turn of the host
stood at `CI`, and its word was illegal or ran as a command. -/
theorem step_next {s t : State} (h : step s = .next t) :
    s.FAULT = false ∧ ∃ turn, s.stream[s.CI]? = some turn ∧
      ((∃ why, decode turn.word = .error why ∧
          t = (s.applyHost turn.writes).raise .illegal) ∨
        ∃ i, decode turn.word = .ok i ∧ exec i (s.applyHost turn.writes) = .next t) := by
  unfold step fetch at h
  by_cases hf : s.FAULT = true
  · simp [hf] at h
  · have hf' : s.FAULT = false := by simpa using hf
    refine ⟨hf', ?_⟩
    cases hs : s.stream[s.CI]? with
    | none => simp [hf', hs] at h
    | some turn =>
      refine ⟨turn, rfl, ?_⟩
      cases hd : decode turn.word with
      | error why =>
        simp only [hf', hs, hd, Bool.false_eq_true, if_false, Host.Outcome.next.injEq] at h
        exact .inl ⟨why, rfl, h.symm⟩
      | ok i =>
        simp only [hf', hs, hd, Bool.false_eq_true, if_false] at h
        exact .inr ⟨i, rfl, h⟩

/-- A property that the host's turn, a fault and every command keep is kept by every step. -/
theorem step_keeps {P : State → Prop} {s t : State} (hs : P s)
    (hhost : ∀ ws, P s → P (s.applyHost ws))
    (hill : ∀ u, P u → u.FAULT = false → P (u.raise .illegal))
    (hexec : ∀ u i v, P u → u.FAULT = false → Effect u i v → P v) (h : step s = .next t) : P t := by
  obtain ⟨hf, turn, -, ⟨-, -, rfl⟩ | ⟨i, -, he⟩⟩ := step_next h
  · exact hill _ (hhost _ hs) hf
  · exact hexec _ i _ (hhost _ hs) hf (exec_next he)

end Sys2Proof.Machine
end

