-- ==== Sys2Proof/Tests/Slice0.lean ====
section
/-!
SUPPORT. Tests against the spec's own vectors (95_test_vectors.md; the vector is named at each test), and
for every obligation that has hypotheses a witness that meets them together.
-/

namespace Sys2Proof.Tests

open Sys2Proof Sys2Proof.Machine

/-! ### States -/

/-- Parameters for the tests: the range of 95_test_vectors.md section 2.7, and a bit period of 417. -/
def testParams : Params where
  POLICY := .minimal
  BIT_PERIOD_US := 417
  RANGE_LO := #v[-4000, 0, 0]
  RANGE_HI := #v[8500, 10000, 2000]
  RANGE_REJECT_ACTION := .discard
  CLOCK_HZ := 0
  PIN_ID := 0

/-- The state before any command, with the test's parameters. -/
def fresh : State := { State.reset with params := testParams }

/-- The state after INIT from `fresh` (vector I1), with the string "Hi" at 0x100 (vector W1), one byte and
no terminator at 0x200 (vector W3), and a byte at the top of the address space (vector W4). -/
def ready : State := { fresh with
  LINE := .mark
  TXINIT := true
  TRACE := [.pinOut, .level true]
  CI := 1
  responses := [none]
  hostMem := [(0x100, 0x48#8), (0x101, 0x69#8), (0x102, 0x00#8), (0x200, 0x41#8),
    (0xFFFFFFFF, 0x41#8)] }

/-- `s` with the slots of channel 0 and its cursor. -/
def withChannel (s : State) (a b c : Int) (cur : Slot) : State :=
  { s with
    H := s.H.set 0 #v[BitVec.ofInt 32 a, BitVec.ofInt 32 b, BitVec.ofInt 32 c]
    CUR := s.CUR.set 0 cur }

/-- `s` under the Nudge policy. -/
def nudging (action : RejectAction) (s : State) : State :=
  { s with params := { s.params with POLICY := .nudge, RANGE_REJECT_ACTION := action } }

/-- The state after a command, or the state before it where there is none. -/
def after (i : Instr) (s : State) : State :=
  match exec i s with
  | .next t => t
  | .fault _ => s
  | .refused _ => s

/-- The state after a step, in the same way. -/
def afterStep (s : State) : State :=
  match step s with
  | .next t => t
  | .fault _ => s
  | .refused _ => s

/-- The slots of channel 0 as integers. -/
def slots0 (s : State) : List Int := s.H[0].toList.map BitVec.toInt

/-- The trace of `s` after `n` events, as segments. -/
def levelsFrom (n : Nat) (s : State) : List Bool := (segments (s.TRACE.drop n)).map Prod.fst

/-! ### Well-formedness -/

theorem test_wellFormed_refuses_offer_channel_three : WellFormed (.offer 3#2 0#32) = false := by decide

theorem test_wellFormed_refuses_avg_channel_three : WellFormed (.avg 3#2) = false := by decide

theorem test_wellFormed_accepts : WellFormed (.offer 2#2 5#32) = true ∧ WellFormed .report = true := by
  decide

/-! ### Decoding: words written out from R48 and R54, vectors E1 to E22 -/

theorem test_decode_transmitter :
    decode 0b0000000100000000000000000000000000000000000000000000000000000000#64 = .ok .init ∧
    decode 0b0000001001000001000000000000000000000000000000000000000000000000#64 =
      .ok (.wrbyte 0x41#8) ∧
    decode 0b0000001100000000000000000000000000000000000000000000000100000000#64 =
      .ok (.wrstr 0x100#32) ∧
    decode 0b0000010011111111000000000000000001111111111111111111111111111111#64 =
      .ok (.wrint 2147483647#32 255#8) := by
  decide

theorem test_decode_channels_and_report :
    decode 0b0001000000000010000000000000000000000000000000000000000000000000#64 =
      .ok (.offer 2#2 0#32) ∧
    decode 0x10000000FFFFFED4#64 = .ok (.offer 0#2 (BitVec.ofInt 32 (-300))) ∧
    decode 0b0001000100000001000000000000000000000000000000000000000000000000#64 = .ok (.avg 1#2) ∧
    decode 0b0010000000000000000000000000000000000000000000000000000000000000#64 = .ok .report := by
  decide

theorem test_decode_wrint_signed :
    decode 0x04040000FFFFFFFB#64 = .ok (.wrint (BitVec.ofInt 32 (-5)) 4#8) ∧
    decode 0x0400000080000000#64 = .ok (.wrint (BitVec.ofInt 32 (-2147483648)) 0#8) := by
  decide

theorem test_decode_refuses_operand_fields :
    decode 0x0101000000000000#64 = .error .unusedA ∧ decode 0x0241000000000001#64 = .error .unusedV ∧
    decode 0x0304000000000100#64 = .error .unusedA ∧ decode 0x1101000000000001#64 = .error .unusedV ∧
    decode 0x2000000000000001#64 = .error .unusedV := by
  decide

theorem test_decode_refuses_channels_and_ops :
    decode 0x1003000000000000#64 = .error .channelThree ∧
    decode 0x1004000000000000#64 = .error .channelUpperBits ∧
    decode 0x1103000000000000#64 = .error .channelThree ∧
    decode 0x1000000100000000#64 = .error .reservedBits ∧
    decode 0x0000000000000000#64 = .error .unassignedOp ∧
    decode 0x0500000000000000#64 = .error .unassignedOp ∧
    decode 0xFF00000000000000#64 = .error .unassignedOp := by
  decide

/-- "The serialised form of E1 ... is the bytes 00 00 00 00 00 00 00 01". -/
theorem test_serialised_init :
    wordBytes 0x0100000000000000#64 = [0, 0, 0, 0, 0, 0, 0, 1] ∧
    decodeBytes [0, 0, 0, 0, 0, 0, 0, 1, 7] = .ok (.init, [7]) ∧
    decodeBytes [0, 0, 0] = .error .shortWord := by
  decide

theorem test_encode_worked :
    encode (.wrint (BitVec.ofInt 32 (-5)) 4#8) = 0x04040000FFFFFFFB#64 ∧
    encode (.offer 2#2 1013#32) = 0x10020000000003F5#64 ∧ encode (.avg 2#2) = 0x1102000000000000#64 := by
  decide

theorem test_decodeTableWord : decodeTableWord 64 0x1001000000000237 = some (.offer 1#2 567#32) := by
  decide

/-! ### INIT -/

/-- I1. -/
theorem test_init_from_reset :
    (after .init State.reset).TRACE = [.pinOut, .level true] ∧
    (after .init State.reset).LINE = .mark ∧ (after .init State.reset).TXINIT = true ∧
    (after .init State.reset).CI = 1 := by
  decide

/-- I2. -/
theorem test_init_twice :
    (after .init ready).TRACE = [.pinOut, .level true, .pinOut, .level true] ∧
    (after .init ready).CI = 2 := by
  decide

/-! ### WRBYTE -/

/-- X7, and the twenty events of R69. -/
theorem test_wrbyte_frame :
    levelsFrom 2 (after (.wrbyte 0x41#8) ready) =
      [false, true, false, false, false, false, false, true, false, true] ∧
    (after (.wrbyte 0x41#8) ready).TRACE.length = 22 ∧
    duration (after (.wrbyte 0x41#8) ready).TRACE = 10 * 417 := by
  decide

/-- F7: the third `Wait` is paused. -/
theorem test_wrbyte_preempted :
    let t := after (.wrbyte 0x41#8) { ready with draws := [.pause 0, .pause 0, .pause 5, .pause 0] }
    t.TRACE = [.pinOut, .level true, .level false, .delay 417, .level true, .delay 417, .level false] ∧
    t.FCODE = .preempt ∧ t.FAULT = true ∧ t.CI = 1 := by
  decide

/-! ### WRSTR -/

/-- W1: "Hi", vectors X12 and X13. -/
theorem test_wrstr_hi :
    levelsFrom 2 (after (.wrstr 0x100#32) ready) =
      [false, false, false, false, true, false, false, true, false, true,
       false, true, false, false, true, false, true, true, false, true] ∧
    (after (.wrstr 0x100#32) ready).FAULT = false := by
  decide

/-- W3, F4; W4: no wrap at the top of the address space. -/
theorem test_wrstr_badAddr :
    (after (.wrstr 0x200#32) ready).FCODE = .badAddr ∧
    (after (.wrstr 0x200#32) ready).TRACE.length = 22 ∧
    (after (.wrstr 0x200#32) ready).CI = 1 ∧ (after (.wrstr 0x200#32) ready).LINE = .mark ∧
    (after (.wrstr 0xFFFFFFFF#32) ready).FCODE = .badAddr ∧
    (after (.wrstr 0xFFFFFFFF#32) ready).TRACE.length = 22 := by
  decide

/-! ### WRINT -/

/-- N8: "00-5". -/
theorem test_wrint_negative :
    (after (.wrint (BitVec.ofInt 32 (-5)) 4#8) ready).TRACE =
      ready.TRACE ++ messageEvents 417 [0x30, 0x30, 0x2D, 0x35] := by
  decide

/-- N2, N9, N12, N13. -/
theorem test_pad :
    pad 12345 4 = [0x31, 0x32, 0x33, 0x34, 0x35] ∧ pad (-7) 3 = [0x30, 0x2D, 0x37] ∧
    pad (-2147483648) 4 =
      [0x2D, 0x32, 0x31, 0x34, 0x37, 0x34, 0x38, 0x33, 0x36, 0x34, 0x38] ∧
    pad 2147483647 4 = [0x32, 0x31, 0x34, 0x37, 0x34, 0x38, 0x33, 0x36, 0x34, 0x37] := by
  decide

/-! ### OFFER -/

/-- O2, O3, O16, O13, O19: the band's edge, a negative comparison value, the cursor's wrap, no overflow. -/
theorem test_offer_minimal :
    slots0 (after (.offer 0#2 120#32) (withChannel fresh 100 0 0 1)) = [100, 120, 0] ∧
    slots0 (after (.offer 0#2 121#32) (withChannel fresh 100 0 0 1)) = [100, 0, 0] ∧
    slots0 (after (.offer 0#2 (BitVec.ofInt 32 (-500))) (withChannel fresh (-500) 0 0 1)) =
      [-500, 0, 0] ∧
    (after (.offer 0#2 1100#32) (withChannel fresh 1000 1000 1000 2)).cursor 0 = 0 ∧
    slots0 (after (.offer 0#2 (BitVec.ofInt 32 (-2147483648)))
      (withChannel fresh 2147483647 0 0 1)) = [2147483647, 0, 0] := by
  decide

/-- U1, U4, U6, U7 through the command, whose paths call no `NUDGE_FN`. -/
theorem test_offer_nudge :
    slots0 (after (.offer 0#2 110#32) (nudging .discard (withChannel fresh 100 100 100 0))) =
      [110, 100, 100] ∧
    slots0 (after (.offer 0#2 9000#32) (nudging .discard (withChannel fresh 100 100 100 0))) =
      [100, 100, 100] ∧
    slots0 (after (.offer 0#2 2345#32) (nudging .discard fresh)) = [2345, 0, 0] ∧
    slots0 (after (.offer 0#2 9000#32) (nudging .discard fresh)) = [0, 0, 0] := by
  decide

/-- U2, U3, U5: the two readings of `NUDGE_FN` of R95, given to the tick as its argument. -/
theorem test_tick_with_nudge_function :
    let a (prev v : Int) : Sample := BitVec.ofInt 32 (prev + tdiv (v - prev) 100)
    let b (prev v : Int) : Sample := BitVec.ofInt 32 (v + tdiv (prev - v) 100)
    let s := withChannel fresh 100 100 100 0
    slots0 ((nudging .discard s).offerWith 2 a 0 500#32) = [104, 100, 100] ∧
    slots0 ((nudging .discard s).offerWith 2 b 0 500#32) = [496, 100, 100] ∧
    slots0 ((nudging .nudge s).offerWith 2 a 0 9000#32) = [189, 100, 100] := by
  decide

/-- O18 at its third OFFER, where the comparison offsets 2, 1 and 0 part. -/
theorem test_tick_offsets :
    let s := withChannel fresh 100 120 0 2
    slots0 (s.offerWith 2 Config.nudgeFn 0 140#32) = [100, 120, 140] ∧
    slots0 (s.offerWith 1 Config.nudgeFn 0 140#32) = [100, 120, 0] ∧
    slots0 (s.offerWith 0 Config.nudgeFn 0 140#32) = [100, 120, 140] := by
  decide

/-! ### AVG -/

/-- A2, and AVG without INIT. -/
theorem test_avg_startup :
    (after (.avg 0#2) (withChannel fresh 2345 0 0 1)).responses = [some 781] ∧
    (after (.avg 0#2) State.reset).values = [0] := by
  decide

/-- A5, A6, A7, A11: truncation toward zero, an exact sum. -/
theorem test_avg_truncates :
    (withChannel fresh (-1) 0 0 0).mean 0 = 0 ∧ (withChannel fresh (-2) (-2) 0 0).mean 0 = -1 ∧
    (withChannel fresh (-5) 0 0 0).mean 0 = -1 ∧
    (withChannel fresh 2147483647 2147483647 2147483647 0).mean 0 = 2147483647 := by
  decide

/-! ### REPORT -/

/-- R1 of section 2.9: "000000000000\r\n" after INIT with no OFFER. -/
theorem test_report_empty :
    (after .report ready).CI = 2 ∧ (after .report ready).FAULT = false ∧
    ready.reportMessage = List.replicate 12 0x30#8 ++ [0x0D#8, 0x0A#8] := by
  decide

/-- R5 of section 2.9: "1234500-50000\r\n". -/
theorem test_report_wide_and_negative :
    ({ ready with H := #v[#v[12345, 12345, 12345], #v[BitVec.ofInt 32 (-15), 0, 0], #v[0, 0, 0]] } :
      State).reportMessage =
      [0x31, 0x32, 0x33, 0x34, 0x35, 0x30, 0x30, 0x2D, 0x35, 0x30, 0x30, 0x30, 0x30, 0x0D, 0x0A] := by
  decide

/-! ### Steps and faults -/

/-- F1, and F3: decoding comes before the INIT check. -/
theorem test_step_faults_from_reset :
    (afterStep (State.reset.withFetchWord 64 0x0241000000000000)).FCODE = .noInit ∧
    (afterStep (State.reset.withFetchWord 64 0x0241000000000001)).FCODE = .illegal ∧
    (afterStep (State.reset.withFetchWord 64 0x0241000000000001)).CI = 0 := by
  decide

/-- A step runs the word at `CI`; a faulted state and a finished stream have no step. -/
theorem test_step_runs_and_stops :
    (afterStep (ready.withFetchWord 64 0x1000000000000929)).H[0][0] = 2345#32 ∧
    (afterStep (ready.withFetchWord 64 0x1000000000000929)).CI = 2 ∧
    step { ready with FAULT := true, FCODE := .noInit } = .fault (.halted .noInit) ∧
    step ready = .refused .endOfStream :=
  ⟨by decide, by decide, rfl, rfl⟩

/-- R45: a buffer change made before the command is seen by it. -/
theorem test_host_change_is_seen :
    let s := { fresh with
      TXINIT := true
      stream := [⟨[⟨0x300#32, some 0x41#8⟩, ⟨0x301#32, some 0#8⟩], 0x0300000000000300#64⟩] }
    (afterStep s).TRACE = messageEvents 417 [0x41#8] ∧ (afterStep s).FAULT = false := by
  decide

/-- X2 merged (R65): low for `T`, then high for `9 T`. -/
theorem test_merged_view :
    merge (segments (frameEvents 417 0xFF#8)) = [(false, 417), (true, 9 * 417)] := by
  decide

/-! ### Text -/

theorem test_assemble_refuses :
    assembleLine "WRBYTE 256".toList = none ∧ assembleLine "OFFER 3, 5".toList = none ∧
    assembleLine "WRINT 2147483648, 4".toList = none ∧ assembleLine "INIT 1".toList = none := by
  decide

theorem test_assemble_values :
    assembleLine "OFFER T, -2147483648".toList = some [.offer 0#2 0x80000000#32] ∧
    assembleLine "WRBYTE ','".toList = some [.wrbyte 0x2C#8] ∧
    assembleLine " WRSTR  0xFFFFFFFF ".toList = some [.wrstr 0xFFFFFFFF#32] := by
  decide

/-! ### Witnesses: states and operands that meet the hypotheses of an obligation together -/

theorem witness_DecodeOfEncodeIsTheCommand : WellFormed (.offer 1#2 567#32) = true := by decide

theorem witness_EncodeOfDecodeIsTheWord : decode 0x1001000000000237#64 = .ok (.offer 1#2 567#32) := by
  decide

/-- One word for each accepting line, each channel line at the boundary channel 2; and one for each refusal. -/
theorem witness_DecoderFollowsTheAcceptingLines :
    decode 0x0100000000000000#64 = .ok .init ∧ decode 0x02FF000000000000#64 = .ok (.wrbyte 255#8) ∧
    decode 0x03000000FFFFFFFF#64 = .ok (.wrstr 0xFFFFFFFF#32) ∧
    decode 0x04FF0000FFFFFFFF#64 = .ok (.wrint 0xFFFFFFFF#32 255#8) ∧
    decode 0x10020000FFFFFFFF#64 = .ok (.offer 2#2 0xFFFFFFFF#32) ∧
    decode 0x1102000000000000#64 = .ok (.avg 2#2) ∧ decode 0x2000000000000000#64 = .ok .report ∧
    rsvdField 0x0100000100000000#64 ≠ 0#16 ∧
    ¬ ∃ row ∈ table, row.accepts 0x1003000000000000#64 = true ∧
      row.channelOk 0x1003000000000000#64 = true := by
  decide

/-- One word for each of the five kinds, at the edge of its field. -/
theorem witness_IllegalWordsAreTheFiveKinds :
    decode 0x2100000000000000#64 = .error .unassignedOp ∧
    decode 0x0100000100000000#64 = .error .reservedBits ∧
    decode 0x2001000000000000#64 = .error .unusedA ∧ decode 0x0200000080000000#64 = .error .unusedV ∧
    decode 0x1104000000000000#64 = .error .channelUpperBits ∧
    decode 0x1103000000000000#64 = .error .channelThree ∧
    (let s := { fresh with stream := [⟨[], 0x2100000000000000#64⟩] }
     s.FAULT = false ∧ s.stream[s.CI]? = some ⟨[], 0x2100000000000000#64⟩) := by
  decide

theorem witness_StepRunsTheDecodedCommand :
    let s := { fresh with stream := [⟨[⟨0x300#32, some 1#8⟩], 0x1000000000000929#64⟩] }
    s.FAULT = false ∧ s.stream[s.CI]? = some ⟨[⟨0x300#32, some 1#8⟩], 0x1000000000000929#64⟩ ∧
    decode 0x1000000000000929#64 = .ok (.offer 0#2 2345#32) := by
  decide

theorem witness_IllegalWordRaisesIllegalFault :
    let s := { fresh with stream := [⟨[], 0x1003000000000005#64⟩] }
    s.FAULT = false ∧ s.stream[s.CI]? = some ⟨[], 0x1003000000000005#64⟩ ∧
    decode 0x1003000000000005#64 = .error .channelThree := by
  decide

theorem witness_FaultedStateHasNoStep : ({ ready with FAULT := true } : State).FAULT = true := rfl

/-- Both sides of the equivalence: at the end of the stream, and one command before it. -/
theorem witness_FinishedStreamGivesNoCommand :
    fresh.FAULT = false ∧ fresh.stream.length ≤ fresh.CI ∧
    ¬ (fresh.withFetchWord 64 0).stream.length ≤ (fresh.withFetchWord 64 0).CI := by
  decide

/-- The invariant holds of a state with a stream, and the step there answers a next state. -/
theorem witness_EveryStepKeepsTheInvariant :
    (ready.withFetchWord 64 0x0241000000000000).Inv ∧
    ∃ t, step (ready.withFetchWord 64 0x0241000000000000) = .next t := by
  refine ⟨⟨by decide, by decide, by decide, by decide, fun _ _ => rfl, fun h => (by cases h), rfl⟩, ?_⟩
  exact ⟨_, rfl⟩

theorem witness_TraceAndResponsesOnlyGrow :
    ∃ t, step (ready.withFetchWord 64 0x0241000000000000) = .next t := ⟨_, rfl⟩

/-- Both cases: a command that completes and one that faults. -/
theorem witness_CommandCompletesOrFaults :
    ready.FAULT = false ∧ (∃ t, exec (.wrstr 0x100#32) ready = .next t ∧ t.FAULT = false) ∧
    ∃ t, exec (.wrstr 0x200#32) ready = .next t ∧ t.FAULT = true :=
  ⟨rfl, ⟨_, rfl, by decide⟩, ⟨_, rfl, by decide⟩⟩

theorem witness_StepKeepsWhatTheHostSupplies :
    ∃ t, step (fresh.withFetchWord 64 0x2000000000000000) = .next t := ⟨_, rfl⟩

theorem witness_NoPreemptionNoPreemptFault :
    let s := { ready with draws := [.pause 0] }.withFetchWord 64 0x0241000000000000
    s.NoPreempt ∧ s.FCODE ≠ .preempt ∧ ∃ t, step s = .next t :=
  ⟨by unfold State.NoPreempt; decide, by decide, _, rfl⟩

/-- A canonical buffer; a mapping and an unmapping of it read back, at the address and beside it. -/
theorem witness_HostChangeReadsBack :
    HostMem.wf ready.hostMem ∧ (ready.hostMem.apply ⟨0x101#32, none⟩).read 0x101 = none ∧
    (ready.hostMem.apply ⟨0x101#32, none⟩).read 0x102 = some 0#8 ∧
    (ready.hostMem.apply ⟨0x103#32, some 5#8⟩).read 0x103 = some 5#8 := by
  decide

theorem witness_EqualReadsAreEqualBuffers :
    HostMem.wf ready.hostMem ∧ ∀ a, ready.hostMem.read a = ready.hostMem.read a :=
  ⟨by decide, fun _ => rfl⟩

theorem witness_WrbyteSendsTenSegments :
    let s := { ready with draws := [.pause 0] }
    s.TXINIT = true ∧ s.Undisturbed 10 :=
  ⟨rfl, by unfold State.Undisturbed; decide⟩

/-- Both clauses: a transmitting command before INIT, and a command that is none. -/
theorem witness_TransmitBeforeInitFaults :
    transmits .report = true ∧ fresh.TXINIT = false ∧ transmits (.avg 0#2) = false ∧
    ∃ t, exec (.avg 0#2) { fresh with FCODE := .noInit } = .next t ∧ t.FCODE = .noInit :=
  ⟨rfl, rfl, rfl, _, rfl, rfl⟩

theorem ready_holds_hi : ready.BufTerminated 0x100 [0x48#8, 0x69#8] :=
  ⟨⟨by decide, by decide, by decide, by decide, trivial⟩, by decide⟩

/-- A string of two bytes, and the empty string. -/
theorem witness_WrstrSendsTheString :
    ready.TXINIT = true ∧ ready.BufTerminated (0x100#32 : Addr).toNat [0x48#8, 0x69#8] ∧
    ready.Undisturbed (10 * 2) ∧ ready.BufTerminated (0x102#32 : Addr).toNat [] :=
  ⟨rfl, ready_holds_hi, by unfold State.Undisturbed; decide, trivial, by decide⟩

/-- Both clauses: an unmapped address, and the end of the address space. -/
theorem witness_WrstrRunsOutOfTheBuffer :
    ready.TXINIT = true ∧ ready.Undisturbed (10 * 1) ∧
    (ready.BufHolds (0x200#32 : Addr).toNat [0x41#8] ∧ ready.hostMem.read (0x200 + 1) = none) ∧
    (ready.BufHolds (0xFFFFFFFF#32 : Addr).toNat [0x41#8] ∧
      (0xFFFFFFFF#32 : Addr).toNat + 1 > 0xFFFFFFFF) :=
  ⟨rfl, by unfold State.Undisturbed; decide, ⟨⟨by decide, by decide, trivial⟩, by decide⟩,
    ⟨by decide, by decide, trivial⟩, by decide⟩

theorem witness_WrstrReadsOnlyItsString :
    ready.BufTerminated (0x100#32 : Addr).toNat [0x48#8, 0x69#8] ∧
    ({ ready with hostMem := [(0x100, 0x48#8), (0x101, 0x69#8), (0x102, 0x00#8), (0x103, 0x21#8)] } :
      State).BufTerminated (0x100#32 : Addr).toNat [0x48#8, 0x69#8] :=
  ⟨ready_holds_hi, ⟨by decide, by decide, by decide, by decide, trivial⟩, by decide⟩

theorem witness_WrintSendsThePaddedValue :
    ready.TXINIT = true ∧
    ready.Undisturbed (10 * (pad (7#32 : Sample).toInt (4#8 : Byte).toNat).length) :=
  ⟨rfl, by unfold State.Undisturbed; decide⟩

/-- The first `Wait` of a message and the last one. -/
theorem witness_DisturbedWaitBreaksTheMessage :
    ready.TXINIT = true ∧ ready.messageOf (.wrbyte 0x41#8) = some [0x41#8] ∧
    ({ ready with draws := [.secondInvocation] } : State).draws = [] ++ .secondInvocation :: [] ∧
    ({ ready with draws := List.replicate 9 (.pause 0) ++ [.pause 1] } : State).draws =
      List.replicate 9 (.pause 0) ++ .pause 1 :: [] ∧
    (∀ d ∈ List.replicate 9 (Draw.pause 0), d.disturbs = false) ∧
    Draw.secondInvocation.disturbs = true ∧ (Draw.pause 1).disturbs = true ∧
    (List.replicate 9 (Draw.pause 0)).length < 10 * [0x41#8].length := by
  decide

theorem witness_DisturbedWaitBreaksTheString :
    let s := { ready with draws := [.pause 0, .pause 3] }
    s.TXINIT = true ∧ s.BufHolds (0x100#32 : Addr).toNat [0x48#8] ∧
    s.draws = [.pause 0] ++ .pause 3 :: [] ∧ (∀ d ∈ [Draw.pause 0], d.disturbs = false) ∧
    (Draw.pause 3).disturbs = true ∧ [Draw.pause 0].length < 10 * [0x48#8].length :=
  ⟨rfl, ⟨by decide, by decide, trivial⟩, rfl, by decide, by decide, by decide⟩

theorem witness_TransmitterCommandsFrame :
    (∃ t, exec .init fresh = .next t) ∧ transmits (.wrstr 0x200#32) = true ∧
    ∃ t, exec (.wrstr 0x200#32) ready = .next t :=
  ⟨⟨_, rfl⟩, rfl, _, rfl⟩

theorem witness_SentBytesAreReadFromTheTrace :
    messageEvents 417 [0x48#8] = messageEvents 417 [0x48#8] := rfl

/-- The premises of every line, the means in 0 to 9999 among them; `fresh` is a state before INIT. -/
theorem witness_TraceDurationsOfTheCommands :
    fresh.TXINIT = false ∧ (0#2 : BitVec 2) ≠ 3#2 ∧
    ready.TXINIT = true ∧ ready.NoPreempt ∧
    ready.BufTerminated (0x100#32 : Addr).toNat [0x48#8, 0x69#8] ∧
    (∀ ch, 0 ≤ ready.mean ch ∧ ready.mean ch ≤ 9999) ∧ (2#2 : BitVec 2) ≠ 3#2 :=
  ⟨rfl, by decide, rfl, by unfold State.NoPreempt; decide, ready_holds_hi, by decide, by decide⟩

/-- Each clause of the tick: the sentinel, the edge of the band, and a rejection beside it. -/
theorem witness_OfferMinimalTick :
    (2 : Chan).val = (2#2 : BitVec 2).toNat ∧ fresh.params.POLICY = .minimal ∧
    (fresh.slot 2 (Fin.ofNat 3 ((fresh.cursor 2).val + 2))).toInt = 0 ∧
    |(120#32 : Sample).toInt - 100| ≤ Int.tdiv 100 5 ∧
    ¬ |(121#32 : Sample).toInt - 100| ≤ Int.tdiv 100 5 := by
  decide

/-- Each clause: a value at the lower bound, one below it, and the two range actions. -/
theorem witness_OfferNudgeTick :
    let s := nudging .nudge fresh
    let s' := nudging .discard fresh
    (0 : Chan).val = (0#2 : BitVec 2).toNat ∧ s.params.POLICY = .nudge ∧ s'.params.POLICY = .nudge ∧
    s.params.RANGE_LO[0] ≤ (BitVec.ofInt 32 (-4000)).toInt ∧
    ¬ s.params.RANGE_LO[0] ≤ (BitVec.ofInt 32 (-4001)).toInt ∧
    s.params.RANGE_REJECT_ACTION = .nudge ∧ s'.params.RANGE_REJECT_ACTION ≠ .nudge := by
  decide

theorem witness_OfferFrame :
    (1 : Chan).val = (1#2 : BitVec 2).toNat ∧ ∃ t, exec (.offer 1#2 5#32) fresh = .next t :=
  ⟨rfl, _, rfl⟩

/-- Each corner: comparison values 0, 1, 4, -4, 5 and -5. -/
theorem witness_OfferCornerCases :
    (0 : Chan).val = (0#2 : BitVec 2).toNat ∧ fresh.params.POLICY = .minimal ∧
    (fresh.prev 0 = 0) ∧ ((withChannel fresh 1 0 0 1).prev 0 = 1) ∧
    ((withChannel fresh 4 0 0 1).prev 0 = 4) ∧ ((withChannel fresh (-4) 0 0 1).prev 0 = -4) ∧
    ((withChannel fresh 5 0 0 1).prev 0 = 5) ∧ ((withChannel fresh (-5) 0 0 1).prev 0 = -5) ∧
    (withChannel fresh 4 0 0 1).params.POLICY = .minimal := by
  decide

/-- R90 item 3: from a comparison value 5 the samples 4 and 6 are written, 3 and 7 are not. -/
theorem test_threshold_of_five :
    let slotAfterOffer (v : Sample) := ((withChannel fresh 5 0 0 1).offer 0 v).slot 0 1
    slotAfterOffer 4#32 = 4#32 ∧ slotAfterOffer 6#32 = 6#32 ∧
    slotAfterOffer 3#32 = 0#32 ∧ slotAfterOffer 7#32 = 0#32 := by
  decide

/-- Under each policy: a tick that accepts, and one that rejects. -/
theorem witness_NextTickComparesWithThisTicksSlot :
    let s := withChannel fresh 100 0 0 1
    let n := nudging .discard s
    (0 : Chan).val = (0#2 : BitVec 2).toNat ∧
    s.params.POLICY = .minimal ∧ n.params.POLICY = .nudge ∧
    (∃ t, exec (.offer 0#2 120#32) s = .next t) ∧ (∃ t, exec (.offer 0#2 121#32) s = .next t) ∧
    (∃ t, exec (.offer 0#2 120#32) n = .next t) ∧ ∃ t, exec (.offer 0#2 (-4001)) n = .next t :=
  ⟨rfl, rfl, rfl, ⟨_, rfl⟩, ⟨_, rfl⟩, ⟨_, rfl⟩, _, rfl⟩

theorem witness_CursorAfterAnyTicks :
    (1 : Chan).val = (1#2 : BitVec 2).toNat ∧ fresh.FAULT = false ∧
    (List.replicate 9 (0#32 : Sample)).length = 9 := by
  decide

theorem witness_AvgRespondsTheTruncatingMean : (2 : Chan).val = (2#2 : BitVec 2).toNat := by decide

/-- A positive and a negative sum. -/
theorem witness_MeanIsASampleAndTruncates :
    (0 ≤ ((withChannel fresh 5 0 0 0).slot 0 0).toInt) ∧
    ((withChannel fresh (-5) 0 0 0).slot 0 0).toInt ≤ 0 := by
  decide

theorem witness_TdivIsTheFormula : (5 : Int) ≠ 0 := by decide

/-- Two states that agree on channel 0 alone, and a transmitter command with its next state. -/
theorem witness_ChannelsAndTransmitterAreIsolated :
    let s := withChannel fresh 100 0 0 1
    let s' := withChannel { ready with H := ready.H.set 1 #v[7, 7, 7] } 100 0 0 1
    (0 : Chan).val = (0#2 : BitVec 2).toNat ∧ s.params = s'.params ∧
    (∀ i, s.slot 0 i = s'.slot 0 i) ∧ s.cursor 0 = s'.cursor 0 ∧
    (∃ t, exec (.offer 0#2 120#32) s = .next t) ∧ (∃ t, exec (.offer 0#2 120#32) s' = .next t) ∧
    (∃ t, exec (.avg 0#2) s = .next t) ∧ (∃ t, exec (.avg 0#2) s' = .next t) ∧
    (transmits (.wrbyte 1#8) = true ∧ Instr.wrbyte 1#8 ≠ .report) ∧
    ∃ t, exec (.wrbyte 1#8) ready = .next t :=
  ⟨rfl, by decide, by decide, rfl, ⟨_, rfl⟩, ⟨_, rfl⟩, ⟨_, rfl⟩, ⟨_, rfl⟩, ⟨rfl, by decide⟩, _, rfl⟩

theorem witness_ReportSendsTheMessage :
    ready.TXINIT = true ∧ ready.Undisturbed 140 :=
  ⟨rfl, by unfold State.Undisturbed; decide⟩

theorem witness_ReportWorkedMessage :
    let s := { ready with H := #v[#v[2345, 2345, 2345], #v[567, 567, 567], #v[1013, 1013, 1013]] }
    s.TXINIT = true ∧ s.NoPreempt ∧ (∀ i, s.slot 0 i = 2345#32) ∧ (∀ i, s.slot 1 i = 567#32) ∧
    ∀ i, s.slot 2 i = 1013#32 :=
  ⟨rfl, by unfold State.NoPreempt; decide, by decide, by decide, by decide⟩

end Sys2Proof.Tests
end

section
/-!
Division rounded toward zero (R9) and the truncating mean of the slots of a channel (R96, R97).
-/

namespace Sys2Proof.Machine

/-! ### `tdiv` -/

/-- `tdiv` is odd in the dividend, so its sign comes out (R9). -/
theorem tdiv_eq_sign_mul_tdiv_abs_left (a b : Int) : tdiv a b = a.sign * tdiv |a| b := by
  obtain ha | rfl | ha := lt_trichotomy a 0
  · simp [tdiv, Int.sign_eq_neg_one_of_neg ha, abs_of_neg ha]
  · simp [tdiv]
  · simp [Int.sign_eq_one_of_pos ha, abs_of_pos ha]

/-- `tdiv` is odd in the divisor, so its sign comes out (R9). -/
theorem tdiv_eq_sign_mul_tdiv_abs_right (a b : Int) : tdiv a b = b.sign * tdiv a |b| := by
  obtain hb | rfl | hb := lt_trichotomy b 0
  · simp [tdiv, Int.sign_eq_neg_one_of_neg hb, abs_of_neg hb]
  · simp [tdiv]
  · simp [Int.sign_eq_one_of_pos hb, abs_of_pos hb]

/-- On magnitudes `tdiv` is the floor of the quotient (R9). -/
theorem tdiv_abs_abs (a b : Int) : tdiv |a| |b| = |a| / |b| :=
  Int.tdiv_eq_ediv_of_nonneg (abs_nonneg a)

/-- A dividend from 0 up is rounded down. -/
theorem tdiv_bounds_of_nonneg {a b : Int} (ha : 0 ≤ a) (hb : 0 < b) :
    b * tdiv a b ≤ a ∧ a < b * tdiv a b + b :=
  ⟨Int.mul_tdiv_self_le ha, Int.lt_mul_tdiv_self_add hb⟩

/-- A dividend from 0 down is rounded up: the mirror image of `tdiv_bounds_of_nonneg`. -/
theorem tdiv_bounds_of_nonpos {a b : Int} (ha : a ≤ 0) (hb : 0 < b) :
    a ≤ b * tdiv a b ∧ b * tdiv a b < a + b := by
  have hneg : tdiv (-a) b = -tdiv a b := Int.neg_tdiv a b
  have hbounds := tdiv_bounds_of_nonneg (neg_nonneg.mpr ha) hb
  rw [hneg, mul_neg] at hbounds
  omega

/-- Settles O47: the signs of dividend and divisor come out, and the magnitudes divide with floor. -/
theorem tdivIsTheFormula : Obligations.TdivIsTheFormula := by
  intro a b _
  rw [tdiv_eq_sign_mul_tdiv_abs_left, tdiv_eq_sign_mul_tdiv_abs_right, tdiv_abs_abs, mul_assoc]

/-! ### The mean -/

/-- The numeral range of a sample (s32). -/
theorem sample_toInt_range (v : Sample) : -2147483648 ≤ v.toInt ∧ v.toInt ≤ 2147483647 := by
  have hle := v.le_toInt
  have hlt := v.toInt_lt
  omega

/-- A sum from 0 up is rounded down to its mean (R97 item 2). -/
theorem State.mean_bounds_of_nonneg {s : State} {ch : Chan} (h : 0 ≤ s.slotSum ch) :
    3 * s.mean ch ≤ s.slotSum ch ∧ s.slotSum ch < 3 * s.mean ch + 3 :=
  tdiv_bounds_of_nonneg h (by decide)

/-- A sum from 0 down is rounded up to its mean (R97 item 2). -/
theorem State.mean_bounds_of_nonpos {s : State} {ch : Chan} (h : s.slotSum ch ≤ 0) :
    s.slotSum ch ≤ 3 * s.mean ch ∧ 3 * s.mean ch < s.slotSum ch + 3 :=
  tdiv_bounds_of_nonpos h (by decide)

/-- The sum of three samples lies between three times the s32 bounds (R97 item 3). -/
theorem State.slotSum_range (s : State) (ch : Chan) :
    3 * -2147483648 ≤ s.slotSum ch ∧ s.slotSum ch ≤ 3 * 2147483647 := by
  have h0 := sample_toInt_range (s.slot ch 0)
  have h1 := sample_toInt_range (s.slot ch 1)
  have h2 := sample_toInt_range (s.slot ch 2)
  rw [State.slotSum_eq]
  omega

/-- The mean is in the s32 range (R97 item 3): the sum is, threefold, and truncation only moves the
quotient toward zero. -/
theorem State.mean_range (s : State) (ch : Chan) :
    -2147483648 ≤ s.mean ch ∧ s.mean ch ≤ 2147483647 := by
  have hsum := s.slotSum_range ch
  obtain h | h := le_total 0 (s.slotSum ch)
  · have hmean := State.mean_bounds_of_nonneg h
    omega
  · have hmean := State.mean_bounds_of_nonpos h
    omega

/-- Settles O46: the range of the mean, and its rounding for a sum of either sign. -/
theorem meanIsASampleAndTruncates : Obligations.MeanIsASampleAndTruncates := by
  intro s c
  dsimp only
  rw [← State.slotSum_eq]
  obtain ⟨hlow, hhigh⟩ := s.mean_range c
  exact ⟨hlow, hhigh, State.mean_bounds_of_nonneg, State.mean_bounds_of_nonpos⟩

end Sys2Proof.Machine
end

section
/-!
The step and the state (10_state.md): what every command leaves unchanged, what it may append, the
invariant, and that the channels and the transmitter do not see each other.
-/

namespace Sys2Proof.Machine

/-! ### What each command keeps -/

/-- No command changes a parameter, the stream or the host buffer (R24, R42, R47). -/
theorem Effect.host_kept {s t : State} {i : Instr} (h : Effect s i t) :
    t.params = s.params ∧ t.stream = s.stream ∧ t.hostMem = s.hostMem := by
  cases h with
  | offered ch c v => simp
  | _ => exact ⟨rfl, rfl, rfl⟩

/-- Every command only appends to the trace (R20, R111). -/
theorem Effect.trace_prefix {s t : State} {i : Instr} (h : Effect s i t) : s.TRACE <+: t.TRACE := by
  cases h with
  | configured => exact List.prefix_append _ _
  | sent => exact List.prefix_append _ _
  | ranOut => exact List.prefix_append _ _
  | broken => exact List.prefix_append _ _
  | offered => simp
  | _ => exact List.prefix_rfl

/-- INIT and the transmitting commands leave the history and the cursors (R79, R81). -/
theorem Effect.channels_kept {s t : State} {i : Instr} (h : Effect s i t)
    (hi : i = .init ∨ transmits i = true) : t.H = s.H ∧ t.CUR = s.CUR := by
  cases h with
  | offered => simp [transmits] at hi
  | _ => exact ⟨rfl, rfl⟩

/-- INIT raises no fault and draws nothing (R67). -/
theorem Effect.init_kept {s t : State} (h : Effect s .init t) :
    t.FAULT = s.FAULT ∧ t.FCODE = s.FCODE ∧ t.draws = s.draws := by
  cases h with
  | configured => exact ⟨rfl, rfl, rfl⟩
  | unready hi | sent _ hi | broken _ _ _ hi => cases hi

/-- Only INIT writes `TXINIT` (R18). -/
theorem Effect.txinit_kept {s t : State} {i : Instr} (h : Effect s i t) (hi : i ≠ .init) :
    t.TXINIT = s.TXINIT := by
  cases h with
  | configured => exact absurd rfl hi
  | offered => simp
  | _ => rfl

/-- A transmitting command is not AVG, so it has no value to return (R22). -/
theorem not_avg_of_transmits {i : Instr} (hi : transmits i = true) : ¬ ∃ ch, i = .avg ch := by
  rintro ⟨ch, rfl⟩
  cases hi

/-- A command completes and responds once, or faults and responds nothing (R21, R22, R110). -/
theorem Effect.completes_or_faults {s t : State} {i : Instr} (h : Effect s i t)
    (hf : s.FAULT = false) :
    (t.FAULT = false ∧ t.FCODE = s.FCODE ∧ t.CI = s.CI + 1 ∧
      ∃ r, t.responses = s.responses ++ [r] ∧ (r ≠ none ↔ ∃ ch, i = .avg ch)) ∨
    (t.FAULT = true ∧ t.FCODE ≠ .none ∧ t.CI = s.CI ∧ t.responses = s.responses) := by
  cases h with
  | configured => exact .inl ⟨hf, rfl, rfl, none, rfl, by simp⟩
  | sent _ hi => exact .inl ⟨hf, rfl, rfl, none, rfl, by simpa using not_avg_of_transmits hi⟩
  | offered => exact .inl ⟨by simpa using hf, by simp, by simp, none, by simp, by simp⟩
  | averaged => exact .inl ⟨hf, rfl, rfl, _, rfl, by simp⟩
  | _ => exact .inr ⟨rfl, nofun, rfl, rfl⟩

/-- Every command only appends to the responses (R22). -/
theorem Effect.responses_prefix {s t : State} {i : Instr} (h : Effect s i t)
    (hf : s.FAULT = false) : s.responses <+: t.responses := by
  obtain ⟨-, -, -, r, hr, -⟩ | ⟨-, -, -, hr⟩ := h.completes_or_faults hf
  · exact hr ▸ List.prefix_append _ _
  · exact hr ▸ List.prefix_rfl

/-! ### The invariant, operation by operation -/

/-- The bit period and the ranges of the hardware are as R66 and R94 require. -/
theorem Config.params_wf : Config.params.wf :=
  ⟨Nat.succ_pos _, fun ch => by simp [Config.params]⟩

section
variable {s : State} (h : s.Inv)
include h

theorem State.Inv.applyHost (ws : List HostWrite) : (s.applyHost ws).Inv :=
  { h with mem := State.applyHost_wf h.mem ws }

theorem State.Inv.complete (r : Option Int) : (s.complete r).Inv :=
  { h with answered := by simp [h.answered] }

/-- The tick of a channel touches nothing the invariant reads (R79, R81). -/
theorem State.Inv.offer (c : Chan) (v : Sample) : (s.offer c v).Inv := by
  rw [State.offer_eq]
  exact { h with }

/-- INIT leaves the line at mark, as its own `Level` says (R29, R67). -/
theorem State.Inv.configure :
    ({ s with
        LINE := .mark
        TRACE := s.TRACE ++ [Event.pinOut, Event.level true]
        TXINIT := true } : State).Inv :=
  { h with
    line := by simp [lineOf_append, Line.after, Line.ofBit]
    idle := fun _ _ => rfl
    quiet := nofun }

/-- A broken-off message leaves the line at its last level, the one state that need not idle at mark
(R111, R116). -/
theorem State.Inv.brokenOff (hx : s.TXINIT = true) (pre : List Bool) (b : Bool)
    (rest : List Draw) : (s.brokenOff pre b rest).Inv :=
  { h with
    fault := by simp [State.brokenOff]
    line := by simp only [State.brokenOff, ← List.append_assoc, lineOf_snoc_level]
    idle := fun _ hcode => absurd rfl hcode
    quiet := fun hquiet => absurd (hx.symm.trans hquiet) nofun }

variable (hf : s.FAULT = false)
include hf

/-- In an unfaulted state after INIT the line idles at mark (R19, R29). -/
theorem State.Inv.mark_of_unfaulted (hx : s.TXINIT = true) : s.LINE = .mark :=
  h.idle hx (by simp [h.fault.mp hf])

/-- A fault taken in an unfaulted state finds the line idle, whatever its code (R110). -/
theorem State.Inv.raise {code : FCode} (hcode : code ≠ .none) : (s.raise code).Inv :=
  { h with
    fault := by simp [hcode]
    idle := fun hx _ => h.mark_of_unfaulted hf hx }

/-- A message sent whole ends in a stop bit: the line is back at mark (R71). -/
theorem State.Inv.afterMessage (hx : s.TXINIT = true) (bytes : List Byte) :
    (s.afterMessage bytes).Inv :=
  have hmark := h.mark_of_unfaulted hf hx
  { h with
    line := by simp [State.afterMessage, lineOf_messageEvents, h.line]
    idle := fun _ _ => by simp [State.afterMessage, hmark]
    quiet := fun hquiet => absurd (hx.symm.trans hquiet) nofun }

end

/-- Every command of an unfaulted state keeps the invariant. -/
theorem Effect.keeps_inv {s t : State} {i : Instr} (he : Effect s i t) (h : s.Inv)
    (hf : s.FAULT = false) : t.Inv := by
  cases he with
  | configured => exact h.configure.complete none
  | unready => exact h.raise hf nofun
  | sent bytes _ hx => exact (h.afterMessage hf hx bytes).complete none
  | ranOut addr bytes hx => exact (h.afterMessage hf hx bytes).raise hf nofun
  | broken pre b rest _ hx => exact h.brokenOff hx pre b rest
  | offered ch c v => exact (h.offer c v).complete none
  | averaged ch c => exact h.complete _
  | offeredNone | averagedNone => exact h.raise hf nofun

/-- Settles O14: the host's turn, the fault of an illegal word and every command keep the invariant. -/
theorem everyStepKeepsTheInvariant : Obligations.EveryStepKeepsTheInvariant :=
  fun _ _ hs => step_keeps hs
    (fun ws h => h.applyHost ws)
    (fun _ h hf => h.raise hf nofun)
    (fun _ _ _ h hf he => he.keeps_inv h hf)

/-- Settles O15: the buffer, the trace and the record are empty, and nothing is driven. -/
theorem resetMeetsTheInvariant : Obligations.ResetMeetsTheInvariant where
  mem := HostMem.wf_nil
  params := Config.params_wf
  fault := by simp [State.reset]
  line := rfl
  idle := nofun
  quiet := fun _ => rfl
  answered := rfl

/-! ### The step -/

/-- Settles O9: with a decodable word at `CI`, fetching yields its command after the host's turn. -/
theorem stepRunsTheDecodedCommand : Obligations.StepRunsTheDecodedCommand := by
  intro s turn i hf hturn hdecode
  have hfetch : fetch s = .command i (s.applyHost turn.writes) := by
    simp [fetch, hf, hturn, hdecode]
  simp [step, hfetch, State.applyHost]

/-- Settles O13: every field is a constant, the history and the cursors a constant at each index. -/
theorem resetStateIsAsSpecified : Obligations.ResetStateIsAsSpecified := by
  refine ⟨fun ch i => ?_, fun ch => ?_, rfl, rfl, rfl, rfl, rfl, rfl⟩
  · simp [State.slot, State.reset]
  · simp [State.cursor, State.reset]

/-- Settles O16: a step appends to both lists or leaves them. -/
theorem traceAndResponsesOnlyGrow : Obligations.TraceAndResponsesOnlyGrow := by
  intro s t h
  obtain ⟨hf, turn, -, ⟨-, -, rfl⟩ | ⟨i, -, hexec⟩⟩ := step_next h
  · exact ⟨List.prefix_rfl, List.prefix_rfl⟩
  · have he := exec_next hexec
    exact ⟨he.trace_prefix, he.responses_prefix hf⟩

/-- Settles O17, by the forms in which a command can leave the block. -/
theorem commandCompletesOrFaults : Obligations.CommandCompletesOrFaults :=
  fun _ _ _ hf hexec => (exec_next hexec).completes_or_faults hf

/-- Settles O18: what the host supplies changes in the host's own turn alone. -/
theorem stepKeepsWhatTheHostSupplies : Obligations.StepKeepsWhatTheHostSupplies := by
  intro s t h
  obtain ⟨-, turn, hturn, ⟨-, -, rfl⟩ | ⟨i, -, hexec⟩⟩ := step_next h
  · exact ⟨rfl, rfl, turn, hturn, rfl⟩
  · obtain ⟨hparams, hstream, hmem⟩ := (exec_next hexec).host_kept
    exact ⟨hparams, hstream, turn, hturn, hmem⟩

/-! ### The frames of the commands -/

/-- Settles O35: the three frame lemmas of a command's effect, put together. -/
theorem transmitterCommandsFrame : Obligations.TransmitterCommandsFrame := by
  intro i s t hi hexec
  have he := exec_next hexec
  obtain ⟨hH, hCUR⟩ := he.channels_kept hi
  obtain ⟨hparams, hstream, hmem⟩ := he.host_kept
  refine ⟨hH, hCUR, hparams, hstream, State.memRead_congr hmem, hmem, ?_, ?_⟩
  · rintro rfl
    exact he.init_kept
  · intro htransmits
    exact he.txinit_kept (by rintro rfl; cases htransmits)

/-- OFFER on a channel is a tick of that channel, completed (R83). -/
theorem exec_offer_of_val {ch : BitVec 2} {c : Chan} (h : c.val = ch.toNat) (v : Sample)
    (s : State) : exec (.offer ch v) s = .next ((s.offer c v).complete none) := by
  simp [exec, execOffer, chanOf_of_val h]

/-- AVG on a channel responds the mean of that channel (R96). -/
theorem exec_avg_of_val {ch : BitVec 2} {c : Chan} (h : c.val = ch.toNat) (s : State) :
    exec (.avg ch) s = .next (s.complete (some (s.mean c))) := by
  simp [exec, execAvg, chanOf_of_val h]

/-- Settles O41: a tick is one slot write at the cursor and one cursor write, both of its channel. -/
theorem offerFrame : Obligations.OfferFrame := by
  intro ch c v s t hc hexec
  rw [exec_offer_of_val hc] at hexec
  cases hexec
  have hslot : ∀ c' i, (c' ≠ c ∨ i ≠ s.cursor c) →
      ((s.offer c v).complete none).slot c' i = s.slot c' i := by
    rintro c' i hne
    rw [State.complete_slot, State.offer_slot, if_neg]
    rintro ⟨rfl, rfl⟩
    simp at hne
  have hcursor : ∀ c', c' ≠ c → ((s.offer c v).complete none).cursor c' = s.cursor c' := by
    intro c' hne
    rw [State.complete_cursor, State.offer_cursor, if_neg hne.symm]
  have hmem : ((s.offer c v).complete none).hostMem = s.hostMem := by simp
  refine ⟨hslot, hcursor, ?_, ?_, ?_, ?_, ?_, ?_, ?_, ?_, State.memRead_congr hmem, hmem⟩
  all_goals simp

/-! ### A channel depends on itself alone -/

/-- What a tick writes is a function of the parameters, the cursor and the channel's own slots (R27,
R81). -/
theorem State.tickValue_congr {s s' : State} {c : Chan} (hparams : s.params = s'.params)
    (hslot : ∀ i, s.slot c i = s'.slot c i) (hcursor : s.cursor c = s'.cursor c) (v : Sample) :
    s.tickValue c v = s'.tickValue c v := by
  simp only [State.tickValue, State.prev, hparams, hslot, hcursor]

/-! ### The transmitter depends on no channel -/

/-- The state with another history and other cursors. -/
def State.withChannels (H : Vector (Vector Sample N) NCH) (CUR : Vector Slot NCH) (s : State) :
    State :=
  { s with H := H, CUR := CUR }

/-- A flow with its state changed, faulted or not. -/
def Flow.map (f : State → State) : Flow → Flow
  | .ok s => .ok (f s)
  | .raised s => .raised (f s)

/-- The part `k` of a command does not see the channels: with other channels it does the same, and
leaves those. -/
def BlindToChannels (k : State → Flow) : Prop :=
  ∀ H CUR s, k (s.withChannels H CUR) = (k s).map (State.withChannels H CUR)

theorem BlindToChannels.bind {k l : State → Flow} (hk : BlindToChannels k)
    (hl : BlindToChannels l) : BlindToChannels fun s => (k s).bind l := by
  intro H CUR s
  dsimp only
  rw [hk H CUR s]
  cases k s with
  | ok t => exact hl H CUR t
  | raised t => rfl

theorem State.wait_blind (d : Nat) : BlindToChannels (State.wait d) := by
  intro H CUR s
  have hdraws : (s.withChannels H CUR).draws = s.draws := rfl
  unfold State.wait
  rw [hdraws]
  cases s.draws with
  | nil => rfl
  | cons e rest => cases he : e.disturbs <;> simp only [he] <;> rfl

theorem State.bitSlot_blind (b : Bool) : BlindToChannels (State.bitSlot b) :=
  fun H CUR s => State.wait_blind s.bitPeriod H CUR (s.setPin b)

theorem State.bitSlots_blind (bs : List Bool) : BlindToChannels (State.bitSlots bs) := by
  induction bs with
  | nil => exact fun _ _ _ => rfl
  | cons b bs ih => exact (State.bitSlot_blind b).bind ih

theorem State.frame_blind (c : Byte) : BlindToChannels (State.frame c) :=
  State.bitSlots_blind (frameLevels c)

theorem State.transmit_blind (bytes : List Byte) : BlindToChannels (State.transmit bytes) := by
  induction bytes with
  | nil => exact fun _ _ _ => rfl
  | cons b bs ih => exact (State.frame_blind b).bind ih

/-- The loop of WRSTR reads the host buffer, which is no channel. -/
theorem State.sendString_blind (room a : Nat) : BlindToChannels (State.sendString room a) := by
  induction room generalizing a with
  | zero => exact fun _ _ _ => rfl
  | succ room ih =>
    intro H CUR s
    have hread : (s.withChannels H CUR).memRead a = s.memRead a := rfl
    unfold State.sendString
    rw [hread]
    cases s.memRead a with
    | none => rfl
    | some b =>
      by_cases hb : b = TERM
      · simp only [if_pos hb]
        rfl
      · simp only [if_neg hb]
        exact (State.frame_blind b).bind (ih (a + 1)) H CUR s

/-- A transmitting command whose sending is blind to the channels is so as a whole (R114). -/
theorem State.requireInit_state_withChannels {k : State → Flow} (hk : BlindToChannels k)
    (H : Vector (Vector Sample N) NCH) (CUR : Vector Slot NCH) (s : State) :
    ((s.withChannels H CUR).requireInit k).state =
      ((s.requireInit k).state).withChannels H CUR := by
  have hinit : (s.withChannels H CUR).TXINIT = s.TXINIT := rfl
  unfold State.requireInit
  rw [hinit, hk]
  cases s.TXINIT with
  | false => rfl
  | true => cases k s <;> rfl

/-- INIT and the transmitting commands but REPORT do the same whatever the channels hold (R81). -/
theorem exec_withChannels {i : Instr} (hi : i = .init ∨ (transmits i = true ∧ i ≠ .report))
    {s t : State} (h : exec i s = .next t) (H : Vector (Vector Sample N) NCH)
    (CUR : Vector Slot NCH) :
    exec i (s.withChannels H CUR) = .next (t.withChannels H CUR) := by
  cases i with
  | init => cases h; rfl
  | wrbyte c =>
    cases h
    exact congrArg _ (State.requireInit_state_withChannels (State.frame_blind c) H CUR s)
  | wrstr addr =>
    cases h
    exact congrArg _ (State.requireInit_state_withChannels (State.sendString_blind _ _) H CUR s)
  | wrint value width =>
    cases h
    exact congrArg _ (State.requireInit_state_withChannels (State.transmit_blind _) H CUR s)
  | offer | avg | report => simp [transmits] at hi

/-- Settles O48: OFFER and AVG by what a tick and a mean read, the transmitter by blindness. -/
theorem channelsAndTransmitterAreIsolated : Obligations.ChannelsAndTransmitterAreIsolated := by
  refine ⟨fun ch c v s s' t t' hc hparams hslot hcursor => ⟨?_, ?_⟩,
    fun i s t H CUR hi hexec => exec_withChannels hi hexec H CUR⟩
  · intro ht ht'
    rw [exec_offer_of_val hc] at ht ht'
    cases ht
    cases ht'
    have hvalue := State.tickValue_congr hparams hslot hcursor v
    constructor
    · intro i
      simp only [State.complete_slot, State.offer_slot, hvalue, hcursor, hslot]
    · simp only [State.complete_cursor, State.offer_cursor, hcursor]
  · intro ht ht'
    rw [exec_avg_of_val hc] at ht ht'
    cases ht
    cases ht'
    simp [State.mean_congr hslot]

end Sys2Proof.Machine
end

section
/-!
The host buffer and what is read from it (20_memory.md): the serialised command word, a read after a
change of the host, and the bytes WRBYTE and WRSTR send.
-/

namespace Sys2Proof

/-! ### The serialised word -/

/-- The eight bytes of R36, put together again, are the word: each joins the slice above it. -/
theorem wordOfBytes_extractLsb' (w : CmdWord) :
    wordOfBytes (w.extractLsb' 0 8) (w.extractLsb' 8 8) (w.extractLsb' 16 8) (w.extractLsb' 24 8)
      (w.extractLsb' 32 8) (w.extractLsb' 40 8) (w.extractLsb' 48 8) (w.extractLsb' 56 8) = w := by
  unfold wordOfBytes
  iterate 7 rw [BitVec.extractLsb'_append_extractLsb'_eq_extractLsb' (by decide)]
  exact BitVec.extractLsb'_eq_self

/-- The decoder reads the word at the head of eight bytes or more. -/
theorem decodeBytes_eight (b0 b1 b2 b3 b4 b5 b6 b7 : Byte) (rest : List Byte) :
    decodeBytes (b0 :: b1 :: b2 :: b3 :: b4 :: b5 :: b6 :: b7 :: rest) =
      (decode (wordOfBytes b0 b1 b2 b3 b4 b5 b6 b7)).map fun i => (i, rest) := by
  rw [decodeBytes]
  cases decode (wordOfBytes b0 b1 b2 b3 b4 b5 b6 b7) <;> rfl

/-- The decoder reads a serialised word back and leaves the bytes behind it (R36). -/
theorem decodeBytes_wordBytes_append (w : CmdWord) (rest : List Byte) :
    decodeBytes (wordBytes w ++ rest) = (decode w).map fun i => (i, rest) := by
  have hbytes : wordBytes w ++ rest =
      w.extractLsb' 0 8 :: w.extractLsb' 8 8 :: w.extractLsb' 16 8 :: w.extractLsb' 24 8 ::
        w.extractLsb' 32 8 :: w.extractLsb' 40 8 :: w.extractLsb' 48 8 :: w.extractLsb' 56 8 ::
        rest := rfl
  rw [hbytes, decodeBytes_eight, wordOfBytes_extractLsb']

/-- Settles O6: the bytes are slices of the word by definition, and the slices join to the word. -/
theorem serialisedWordReadsBack : Obligations.SerialisedWordReadsBack := by
  intro w rest
  refine ⟨rfl, fun k hk => ?_, decodeBytes_wordBytes_append w rest⟩
  simp [wordBytes, hk]

end Sys2Proof

namespace Sys2Proof.Machine

/-! ### Reads of the host buffer -/

theorem HostMem.read_cons_self (x : Nat) (b : Byte) (m : HostMem) :
    HostMem.read ((x, b) :: m) x = some b :=
  if_pos rfl

theorem HostMem.read_cons_of_ne {x a : Nat} (h : a ≠ x) (b : Byte) (m : HostMem) :
    HostMem.read ((x, b) :: m) a = m.read a :=
  if_neg h

/-- A change at `x` behind a byte listed at another address is the same change of the whole buffer. -/
theorem HostMem.read_cons_change {x y a : Nat} (hxy : x ≠ y) (c : Byte) {m m' : HostMem}
    {value : Option Byte} (h : m'.read a = if a = x then value else m.read a) :
    HostMem.read ((y, c) :: m') a = if a = x then value else HostMem.read ((y, c) :: m) a := by
  by_cases ha : a = y
  · rw [ha, HostMem.read_cons_self, HostMem.read_cons_self, if_neg (Ne.symm hxy)]
  · rw [HostMem.read_cons_of_ne ha, HostMem.read_cons_of_ne ha, h]

/-- A read after the host maps a byte (R37, R45). -/
theorem HostMem.read_place (m : HostMem) (x : Nat) (b : Byte) (a : Nat) :
    (m.place x b).read a = if a = x then some b else m.read a := by
  induction m with
  | nil => rfl
  | cons cell rest ih =>
    obtain ⟨y, c⟩ := cell
    rw [HostMem.place]
    split
    · rfl
    · split
      case isTrue hxy =>
        subst hxy
        by_cases ha : a = x
        · rw [ha, HostMem.read_cons_self, if_pos rfl]
        · rw [HostMem.read_cons_of_ne ha, HostMem.read_cons_of_ne ha, if_neg ha]
      case isFalse hxy =>
        exact HostMem.read_cons_change hxy c ih

/-- A read after the host unmaps an address: the canonical form lists no address twice (R37, R45). -/
theorem HostMem.read_unmap {m : HostMem} (hm : m.wf) (x a : Nat) :
    (m.unmap x).read a = if a = x then none else m.read a := by
  induction m with
  | nil => simp [HostMem.unmap, HostMem.read, HostMem.unlisted]
  | cons cell rest ih =>
    obtain ⟨y, c⟩ := cell
    obtain ⟨-, hlt, hrest⟩ := HostMem.wf_cons.mp hm
    rw [HostMem.unmap]
    split
    case isTrue hxy =>
      subst hxy
      by_cases ha : a = x
      · rw [ha, if_pos rfl, HostMem.read_eq_none hlt]
      · rw [if_neg ha, HostMem.read_cons_of_ne ha]
    case isFalse hxy =>
      exact HostMem.read_cons_change hxy c (ih hrest)

/-- Settles O21: a change maps one byte or unmaps one address. -/
theorem hostChangeReadsBack : Obligations.HostChangeReadsBack := by
  rintro m ⟨addr, value⟩ a hm
  cases value with
  | some b => exact m.read_place addr.toNat b a
  | none => exact HostMem.read_unmap hm addr.toNat a

/-- An address below the first listed one is unmapped. -/
theorem HostMem.read_of_lt_head {x a : Nat} {b : Byte} {m : HostMem}
    (hm : HostMem.wf ((x, b) :: m)) (ha : a < x) : HostMem.read ((x, b) :: m) a = none := by
  obtain ⟨-, hlt, -⟩ := HostMem.wf_cons.mp hm
  refine HostMem.read_eq_none fun c hc => ?_
  rcases List.mem_cons.mp hc with rfl | hc
  · exact ha
  · exact ha.trans (hlt c hc)

/-- Behind equal heads, canonical buffers that read the same go on to read the same. -/
theorem HostMem.read_tail_congr {x : Nat} {b b' : Byte} {m m' : HostMem}
    (hm : HostMem.wf ((x, b) :: m)) (hm' : HostMem.wf ((x, b') :: m'))
    (h : ∀ a, HostMem.read ((x, b) :: m) a = HostMem.read ((x, b') :: m') a) (a : Nat) :
    m.read a = m'.read a := by
  obtain ⟨-, hlt, -⟩ := HostMem.wf_cons.mp hm
  obtain ⟨-, hlt', -⟩ := HostMem.wf_cons.mp hm'
  by_cases ha : a = x
  · rw [ha, HostMem.read_eq_none hlt, HostMem.read_eq_none hlt']
  · have h := h a
    rwa [HostMem.read_cons_of_ne ha, HostMem.read_cons_of_ne ha] at h

/-- The first listed address is the lowest one mapped, so buffers that read the same list it at the
same place. -/
theorem HostMem.head_le_of_read_eq {x x' : Nat} {b b' : Byte} {m m' : HostMem}
    (hm' : HostMem.wf ((x', b') :: m'))
    (h : ∀ a, HostMem.read ((x, b) :: m) a = HostMem.read ((x', b') :: m') a) : x' ≤ x := by
  by_contra hlt
  have hx := h x
  rw [HostMem.read_cons_self, HostMem.read_of_lt_head hm' (by omega)] at hx
  cases hx

/-- Settles O22, by induction on one buffer: both list the lowest mapped address first, with its byte,
and the rests read the same. -/
theorem equalReadsAreEqualBuffers : Obligations.EqualReadsAreEqualBuffers := by
  intro m
  induction m with
  | nil =>
    rintro (_ | ⟨⟨x', b'⟩, m'⟩) - - h
    · rfl
    · cases (h x').trans (HostMem.read_cons_self x' b' m')
  | cons cell m ih =>
    obtain ⟨x, b⟩ := cell
    rintro (_ | ⟨⟨x', b'⟩, m'⟩) hm hm' h
    · cases (h x).symm.trans (HostMem.read_cons_self x b m)
    · obtain rfl : x = x' := le_antisymm
        (HostMem.head_le_of_read_eq hm fun a => (h a).symm) (HostMem.head_le_of_read_eq hm' h)
      have hb := h x
      rw [HostMem.read_cons_self, HostMem.read_cons_self, Option.some.injEq] at hb
      obtain ⟨-, -, hrest⟩ := HostMem.wf_cons.mp hm
      obtain ⟨-, -, hrest'⟩ := HostMem.wf_cons.mp hm'
      rw [hb, ih m' hrest hrest' (HostMem.read_tail_congr hm hm' h)]

/-! ### The bytes WRBYTE and WRSTR send -/

/-- An undisturbed message after INIT is sent whole, and the command completes (R69, R114). -/
theorem State.requireInit_transmit_state {bytes : List Byte} {s : State} (hx : s.TXINIT = true)
    (hu : s.Undisturbed (10 * bytes.length)) :
    (s.requireInit (State.transmit bytes)).state = (s.afterMessage bytes).complete none := by
  rw [State.requireInit, if_pos hx, State.transmit_ok hu, Flow.state_ok]

/-- WRBYTE sends the message of its one byte (R68). -/
theorem exec_wrbyte (c : Byte) (s : State) :
    exec (.wrbyte c) s = .next (s.requireInit (State.transmit [c])).state := by
  have hframe : State.frame c = State.transmit [c] := funext (State.frame_eq_transmit c)
  rw [← hframe]
  rfl

/-- Settles O24: the events of a message of one byte, written out. -/
theorem wrbyteSendsTenSegments : Obligations.WrbyteSendsTenSegments := by
  intro c s hx hu
  rw [exec_wrbyte, State.requireInit_transmit_state (bytes := [c]) hx hu]
  rfl

/-- The loop of WRSTR on a terminated string sends the string: it stops at the terminator (R73,
R74). -/
theorem State.sendString_terminated {bytes : List Byte} {room a : Nat} {s : State}
    (hb : s.BufTerminated a bytes) (hroom : a + room = addrLimit) :
    s.sendString room a = s.transmit bytes := by
  obtain ⟨hold, hterm⟩ := hb
  have hle := hold.end_le (by omega)
  rw [State.sendString_holds hold hroom]
  cases ht : s.transmit bytes with
  | raised t => rfl
  | ok t =>
    have hterm' : t.memRead (a + bytes.length) = some TERM :=
      (State.memRead_congr (State.transmit_hostMem_ok ht) _).trans hterm
    exact State.sendString_term hterm' (by omega)

/-- WRSTR on a terminated string sends the message of its bytes (R73, R74). -/
theorem exec_wrstr_of_terminated {addr : Addr} {bytes : List Byte} {s : State}
    (hb : s.BufTerminated addr.toNat bytes) :
    exec (.wrstr addr) s = .next (s.requireInit (State.transmit bytes)).state := by
  have hsend : s.sendString (addrLimit - addrOf addr) (addrOf addr) = s.transmit bytes :=
    State.sendString_terminated hb (addr_room addr)
  simp only [exec, execWrstr, State.requireInit, hsend]

/-- Settles O26: the string at the address is the message WRSTR sends. -/
theorem wrstrSendsTheString : Obligations.WrstrSendsTheString := by
  intro addr bytes s hx hb hu
  rw [exec_wrstr_of_terminated hb, State.requireInit_transmit_state hx hu]
  rfl

/-! ### Sending reads no buffer -/

/-- The state with another host buffer. -/
def State.withBuffer (m : HostMem) (s : State) : State := { s with hostMem := m }

/-- Bit slots do the same whatever the buffer holds: the draws alone decide where they end (R116). -/
theorem State.bitSlots_withBuffer (bs : List Bool) (m : HostMem) (s : State) :
    (s.withBuffer m).bitSlots bs = (s.bitSlots bs).map (State.withBuffer m) := by
  rcases draws_cases s.draws bs.length with h | ⟨ds, e, rest, hd, hlen, hds, he⟩
  · have hok : s.bitSlots bs = .ok (s.afterSlots bs) := State.bitSlots_ok h
    have hok' : (s.withBuffer m).bitSlots bs = .ok ((s.withBuffer m).afterSlots bs) :=
      State.bitSlots_ok h
    rw [hok, hok']
    rfl
  · obtain ⟨pre, b, post, rfl, hpre⟩ :
        ∃ pre b post, bs = pre ++ b :: post ∧ ds.length = pre.length :=
      ⟨bs.take ds.length, bs[ds.length], bs.drop (ds.length + 1), by simp, by simp; omega⟩
    have hd' : (s.withBuffer m).draws = ds ++ e :: rest := hd
    rw [State.bitSlots_raised hd hpre hds he, State.bitSlots_raised hd' hpre hds he]
    rfl

theorem State.transmit_withBuffer (bytes : List Byte) (m : HostMem) (s : State) :
    (s.withBuffer m).transmit bytes = (s.transmit bytes).map (State.withBuffer m) := by
  rw [State.transmit_eq_bitSlots, State.transmit_eq_bitSlots, State.bitSlots_withBuffer]

/-- A command that sends a given message does the same whatever the buffer holds (R114). -/
theorem State.requireInit_transmit_state_withBuffer (bytes : List Byte) (m : HostMem) (s : State) :
    ((s.withBuffer m).requireInit (State.transmit bytes)).state =
      (s.requireInit (State.transmit bytes)).state.withBuffer m := by
  have hinit : (s.withBuffer m).TXINIT = s.TXINIT := rfl
  unfold State.requireInit
  rw [hinit, State.transmit_withBuffer]
  cases s.TXINIT with
  | false => rfl
  | true => cases s.transmit bytes <;> rfl

/-- Settles O28: with either buffer WRSTR sends the message of the same string. -/
theorem wrstrReadsOnlyItsString : Obligations.WrstrReadsOnlyItsString := by
  intro addr bytes s m hb hb'
  refine ⟨_, exec_wrstr_of_terminated hb, ?_⟩
  rw [exec_wrstr_of_terminated hb']
  exact congrArg _ (State.requireInit_transmit_state_withBuffer bytes m s)

end Sys2Proof.Machine
end

section
/-!
The command word (30_encoding.md): the accepting lines of the decoder, the round trips with the
encoder, the opcode table, the illegal words, and the worked texts of the assembler.
-/

namespace Sys2Proof

/-! ### The accepting lines of the decoder -/

/-- The line of R55 on which the decoder accepts `w` as a command, said of the fields of `w`. -/
def AcceptingLine (w : CmdWord) : Instr → Prop
  | .init => opField w = 0x01#8 ∧ aField w = 0#8 ∧ vField w = 0#32
  | .wrbyte c => opField w = 0x02#8 ∧ aField w = c ∧ vField w = 0#32
  | .wrstr addr => opField w = 0x03#8 ∧ aField w = 0#8 ∧ vField w = addr
  | .wrint value width => opField w = 0x04#8 ∧ aField w = width ∧ vField w = value
  | .offer ch value =>
    opField w = 0x10#8 ∧ aField w = chanA ch ∧ vField w = value ∧ ch ≠ 3#2
  | .avg ch => opField w = 0x11#8 ∧ aField w = chanA ch ∧ vField w = 0#32 ∧ ch ≠ 3#2
  | .report => opField w = 0x20#8 ∧ aField w = 0#8 ∧ vField w = 0#32

/-- A byte reads as a channel where it is the `A` field of that channel, which is not 3 (R53). -/
theorem decodeChan_eq_ok_iff {a : Byte} {ch : BitVec 2} :
    decodeChan a = .ok ch ↔ a = chanA ch ∧ ch ≠ 3#2 := by
  constructor
  · fun_cases decodeChan a with
    | case1 | case2 => nofun
    | case3 hhigh hlow =>
      rintro ⟨⟩
      exact ⟨(chanA_of_high (not_not.mp hhigh)).symm, hlow⟩
  · rintro ⟨rfl, hch⟩
    simp [decodeChan, hch]

/-- What the decoder accepts, it accepts on the line of its command: the branches of R55 that answer
a command, in their order. -/
theorem acceptingLine_of_decode {w : CmdWord} {i : Instr} :
    decode w = .ok i → rsvdField w = 0#16 ∧ AcceptingLine w i := by
  fun_cases decode w with
  | case4 op a v hr hop ha hv =>
    rintro ⟨⟩; exact ⟨not_not.mp hr, hop, not_not.mp ha, not_not.mp hv⟩
  | case6 op a v hr _ hop hv =>
    rintro ⟨⟩; exact ⟨not_not.mp hr, hop, rfl, not_not.mp hv⟩
  | case8 op a v hr _ _ hop ha =>
    rintro ⟨⟩; exact ⟨not_not.mp hr, hop, not_not.mp ha, rfl⟩
  | case9 op a v hr _ _ _ hop =>
    rintro ⟨⟩; exact ⟨not_not.mp hr, hop, rfl, rfl⟩
  | case11 op a v hr _ _ _ _ hop ch hch =>
    rintro ⟨⟩
    obtain ⟨ha, hne⟩ := decodeChan_eq_ok_iff.mp hch
    exact ⟨not_not.mp hr, hop, ha, rfl, hne⟩
  | case14 op a v hr _ _ _ _ _ hop ch hch hv =>
    rintro ⟨⟩
    obtain ⟨ha, hne⟩ := decodeChan_eq_ok_iff.mp hch
    exact ⟨not_not.mp hr, hop, ha, not_not.mp hv, hne⟩
  | case17 op a v hr _ _ _ _ _ _ hop ha hv =>
    rintro ⟨⟩; exact ⟨not_not.mp hr, hop, not_not.mp ha, not_not.mp hv⟩
  | _ => nofun

/-- The decoder accepts on every line, whatever lines stand above it (R55). -/
theorem decode_of_acceptingLine {w : CmdWord} {i : Instr} (hr : rsvdField w = 0#16)
    (h : AcceptingLine w i) : decode w = .ok i := by
  cases i with
  | init | wrbyte | wrstr | wrint | report =>
    obtain ⟨hop, ha, hv⟩ := h
    simp [decode, hr, hop, ha, hv]
  | offer ch | avg ch =>
    obtain ⟨hop, ha, hv, hne⟩ := h
    have hch : decodeChan (aField w) = .ok ch := decodeChan_eq_ok_iff.mpr ⟨ha, hne⟩
    simp [decode, hr, hop, hch, hv]

/-! ### The round trips -/

/-- A well-formed command is on its accepting line in its own word (R54). -/
theorem acceptingLine_encode {i : Instr} (h : WellFormed i = true) :
    AcceptingLine (encode i) i := by
  cases i with
  | init | wrbyte | wrstr | wrint | report => simp [AcceptingLine, encode]
  | offer | avg => simpa [AcceptingLine, encode, WellFormed, chanWellFormed] using h

/-- A line fixes all fields but the reserved one, so a word without reserved bits is the word of its
command (R48, R51). -/
theorem encode_of_acceptingLine {w : CmdWord} {i : Instr} (hr : rsvdField w = 0#16)
    (h : AcceptingLine w i) : encode i = w := by
  refine Eq.trans ?_ (cmdWord_fields hr)
  cases i with
  | init | wrbyte | wrstr | wrint | report =>
    obtain ⟨hop, ha, hv⟩ := h
    rw [hop, ha, hv, encode]
  | offer | avg =>
    obtain ⟨hop, ha, hv, -⟩ := h
    rw [hop, ha, hv, encode]

theorem wellFormed_of_acceptingLine {w : CmdWord} {i : Instr} (h : AcceptingLine w i) :
    WellFormed i = true := by
  cases i with
  | init | wrbyte | wrstr | wrint | report => rfl
  | offer | avg =>
    obtain ⟨-, -, -, hne⟩ := h
    simpa [WellFormed, chanWellFormed] using hne

/-- Settles O1: the word of a command has no reserved bit and meets the command's accepting line. -/
theorem decodeOfEncodeIsTheCommand : Obligations.DecodeOfEncodeIsTheCommand := by
  intro i hi
  have hr : rsvdField (encode i) = 0#16 := by cases i <;> exact rsvdField_cmdWord _ _ _
  exact decode_of_acceptingLine hr (acceptingLine_encode hi)

/-- Settles O2: the accepting line fixes the word, and its channel test is well-formedness. -/
theorem encodeOfDecodeIsTheWord : Obligations.EncodeOfDecodeIsTheWord := by
  intro w i hw
  obtain ⟨hr, hline⟩ := acceptingLine_of_decode hw
  exact ⟨encode_of_acceptingLine hr hline, wellFormed_of_acceptingLine hline⟩

/-! ### The opcode table -/

/-- The word of every command belongs to the command's own row. -/
theorem tableRow_statement (i : Instr) : Laws.TableRow.Statement i := by
  cases i with
  | init => exact Laws.TableRow.init
  | wrbyte c => exact Laws.TableRow.wrbyte c
  | wrstr addr => exact Laws.TableRow.wrstr addr
  | wrint value width => exact Laws.TableRow.wrint value width
  | offer ch value => exact Laws.TableRow.offer ch value
  | avg ch => exact Laws.TableRow.avg ch
  | report => exact Laws.TableRow.report

theorem table_mnemonics_nodup : (table.map Row.mnemonic).Nodup := by decide

/-- Every row tests the whole of `OP` and of `RSVD`, and its pattern is 0 outside `OP`. -/
theorem table_row_shape : ∀ r ∈ table,
    opField r.mask = 0xFF#8 ∧ rsvdField r.mask = 0xFFFF#16 ∧
      aField r.pattern = 0#8 ∧ rsvdField r.pattern = 0#16 ∧ vField r.pattern = 0#32 := by
  decide

/-- What a row of the table says of the fields of a word it accepts. -/
theorem Row.fields_of_accepts {r : Row} (hr : r ∈ table) {w : CmdWord} (h : r.accepts w = true) :
    rsvdField w = 0#16 ∧ opField w = opField r.pattern ∧
      aField w &&& aField r.mask = 0#8 ∧ vField w &&& vField r.mask = 0#32 := by
  obtain ⟨hmo, hmr, hpa, hpr, hpv⟩ := table_row_shape r hr
  obtain ⟨ho, ha, hrsvd, hv⟩ := (r.accepts_iff w).mp h
  rw [hmo] at ho
  rw [hmr, hpr] at hrsvd
  exact ⟨BitVec.and_allOnes.symm.trans hrsvd, BitVec.and_allOnes.symm.trans ho,
    ha.trans hpa, hv.trans hpv⟩

/-- A field that is 0 under a full mask is 0. -/
theorem eq_zero_of_and_allOnes {n : Nat} {x : BitVec n} (h : x &&& BitVec.allOnes n = 0#n) :
    x = 0#n :=
  BitVec.and_allOnes.symm.trans h

/-- The mask of a channel operand leaves its two low bits free. -/
theorem chanA_of_and_eq_zero {a : Byte} (h : a &&& 0xFC#8 = 0#8) :
    chanA (a.extractLsb' 0 2) = a := by
  revert h; revert a; decide

/-- A word that a row accepts and whose channel, where the row has one, is not 3 is on the accepting
line of a command of that row: a full mask fixes its field, and an empty one leaves it free (R55). -/
theorem Row.exists_acceptingLine {r : Row} (hr : r ∈ table) {w : CmdWord}
    (h : r.accepts w = true) (hchan : r.channelOk w = true) :
    ∃ i, AcceptingLine w i ∧ mnemonicOf i = r.mnemonic := by
  obtain ⟨-, hop, ha, hv⟩ := Row.fields_of_accepts hr h
  simp only [table, List.mem_cons, List.not_mem_nil, or_false] at hr
  obtain rfl | rfl | rfl | rfl | rfl | rfl | rfl := hr
  · exact ⟨.init, ⟨hop, eq_zero_of_and_allOnes ha, eq_zero_of_and_allOnes hv⟩, rfl⟩
  · exact ⟨.wrbyte (aField w), ⟨hop, rfl, eq_zero_of_and_allOnes hv⟩, rfl⟩
  · exact ⟨.wrstr (vField w), ⟨hop, eq_zero_of_and_allOnes ha, rfl⟩, rfl⟩
  · exact ⟨.wrint (vField w) (aField w), ⟨hop, rfl, rfl⟩, rfl⟩
  · have hne : (aField w).extractLsb' 0 2 ≠ 3#2 := by simpa [channelOk, aField_low] using hchan
    exact ⟨.offer _ (vField w), ⟨hop, (chanA_of_and_eq_zero ha).symm, rfl, hne⟩, rfl⟩
  · have hne : (aField w).extractLsb' 0 2 ≠ 3#2 := by simpa [channelOk, aField_low] using hchan
    exact ⟨.avg _, ⟨hop, (chanA_of_and_eq_zero ha).symm, eq_zero_of_and_allOnes hv, hne⟩, rfl⟩
  · exact ⟨.report, ⟨hop, eq_zero_of_and_allOnes ha, eq_zero_of_and_allOnes hv⟩, rfl⟩

/-- A word on an accepting line passes the channel test of the row of its command (R55). -/
theorem AcceptingLine.channelOk {w : CmdWord} {i : Instr} (h : AcceptingLine w i) {r : Row}
    (hr : r.mnemonic = mnemonicOf i) : r.channelOk w = true := by
  cases i with
  | init | wrbyte | wrstr | wrint | report => simp [Row.channelOk, hr, mnemonicOf]
  | offer ch | avg ch =>
    obtain ⟨-, ha, -, hne⟩ := h
    simp [Row.channelOk, ← aField_low, ha, hne]

/-- A decoded word belongs to the row of its command. -/
theorem exists_row_of_decode {w : CmdWord} {i : Instr} (h : decode w = .ok i) :
    ∃ r ∈ table, r.mnemonic = mnemonicOf i ∧ r.accepts w = true ∧ r.channelOk w = true := by
  obtain ⟨hr, hline⟩ := acceptingLine_of_decode h
  obtain ⟨-, r, hmem, hmn, hacc⟩ := tableRow_statement i
  rw [encode_of_acceptingLine hr hline] at hacc
  exact ⟨r, hmem, hmn, hacc, hline.channelOk hmn⟩

/-- The rows of the table are the accepting lines (R55). -/
theorem Row.accepts_iff_exists_decode {r : Row} (hr : r ∈ table) (w : CmdWord) :
    r.accepts w = true ∧ r.channelOk w = true ↔
      ∃ i, decode w = .ok i ∧ mnemonicOf i = r.mnemonic := by
  constructor
  · rintro ⟨hacc, hchan⟩
    obtain ⟨i, hline, hmn⟩ := Row.exists_acceptingLine hr hacc hchan
    obtain ⟨hrsvd, -⟩ := Row.fields_of_accepts hr hacc
    exact ⟨i, decode_of_acceptingLine hrsvd hline, hmn⟩
  · rintro ⟨i, hi, hmn⟩
    obtain ⟨r', hr', hmn', hacc⟩ := exists_row_of_decode hi
    obtain rfl : r' = r :=
      List.inj_on_of_nodup_map table_mnemonics_nodup hr' hr (hmn'.trans hmn)
    exact hacc

/-- A word is refused where it is not accepted: the decoder is total (R55). -/
theorem exists_decode_error_iff {w : CmdWord} :
    (∃ e, decode w = .error e) ↔ ¬ ∃ i, decode w = .ok i := by
  cases decode w <;> simp

/-- Settles O3: the decoder accepts on its lines alone, and the rows are those lines. -/
theorem decoderFollowsTheAcceptingLines : Obligations.DecoderFollowsTheAcceptingLines := by
  intro w
  refine ⟨fun hr => ?_, fun hr => ⟨?_, ?_, ?_, ?_, ?_, ?_, ?_⟩, fun hrow => ?_,
    fun r hr => Row.accepts_iff_exists_decode hr w⟩
  · rw [exists_decode_error_iff]
    rintro ⟨i, hi⟩
    obtain ⟨hrsvd, -⟩ := acceptingLine_of_decode hi
    exact hr hrsvd
  · exact fun h => decode_of_acceptingLine hr h
  · exact fun ⟨hop, hv⟩ => decode_of_acceptingLine hr ⟨hop, rfl, hv⟩
  · exact fun ⟨hop, ha⟩ => decode_of_acceptingLine hr ⟨hop, ha, rfl⟩
  · exact fun hop => decode_of_acceptingLine hr ⟨hop, rfl, rfl⟩
  · exact fun ⟨hop, hhigh, hlow⟩ =>
      decode_of_acceptingLine hr ⟨hop, (chanA_of_high hhigh).symm, rfl, hlow⟩
  · exact fun ⟨hop, ⟨hhigh, hlow⟩, hv⟩ =>
      decode_of_acceptingLine hr ⟨hop, (chanA_of_high hhigh).symm, hv, hlow⟩
  · exact fun h => decode_of_acceptingLine hr h
  · rw [exists_decode_error_iff]
    rintro ⟨i, hi⟩
    obtain ⟨r, hr, -, hacc⟩ := exists_row_of_decode hi
    exact hrow ⟨r, hr, hacc⟩

/-! ### Illegal words -/

/-- A word is legal where its operation is assigned and none of the other tests of R56 fails. -/
theorem exists_decode_ok_iff (w : CmdWord) :
    (∃ i, decode w = .ok i) ↔
      opField w ∈ [0x01#8, 0x02#8, 0x03#8, 0x04#8, 0x10#8, 0x11#8, 0x20#8] ∧
      rsvdField w = 0#16 ∧
      (opField w ∈ [0x01#8, 0x03#8, 0x20#8] → aField w = 0#8) ∧
      (opField w ∈ [0x01#8, 0x02#8, 0x11#8, 0x20#8] → vField w = 0#32) ∧
      (opField w ∈ [0x10#8, 0x11#8] →
        (aField w).extractLsb' 2 6 = 0#6 ∧ (aField w).extractLsb' 0 2 ≠ 3#2) := by
  constructor
  · rintro ⟨i, hi⟩
    obtain ⟨hr, hline⟩ := acceptingLine_of_decode hi
    cases i with
    | init | wrbyte | wrstr | wrint | report =>
      obtain ⟨hop, ha, hv⟩ := hline
      simp [hr, hop, ha, hv]
    | offer | avg =>
      obtain ⟨hop, ha, hv, hne⟩ := hline
      simp [hr, hop, ha, hv, hne]
  · rintro ⟨hassigned, hr, ha, hv, hchan⟩
    suffices ∃ i, AcceptingLine w i from this.imp fun i => decode_of_acceptingLine hr
    simp only [List.mem_cons, List.not_mem_nil, or_false] at hassigned
    obtain hop | hop | hop | hop | hop | hop | hop := hassigned
    · exact ⟨.init, hop, ha (by simp [hop]), hv (by simp [hop])⟩
    · exact ⟨.wrbyte (aField w), hop, rfl, hv (by simp [hop])⟩
    · exact ⟨.wrstr (vField w), hop, ha (by simp [hop]), rfl⟩
    · exact ⟨.wrint (vField w) (aField w), hop, rfl, rfl⟩
    · obtain ⟨hhigh, hlow⟩ := hchan (by simp [hop])
      exact ⟨.offer _ (vField w), hop, (chanA_of_high hhigh).symm, rfl, hlow⟩
    · obtain ⟨hhigh, hlow⟩ := hchan (by simp [hop])
      exact ⟨.avg _, hop, (chanA_of_high hhigh).symm, hv (by simp [hop]), hlow⟩
    · exact ⟨.report, hop, ha (by simp [hop]), hv (by simp [hop])⟩

end Sys2Proof

namespace Sys2Proof.Machine

/-- An illegal word at `CI` raises `F_ILLEGAL` after the host's turn (R113). -/
theorem step_of_decode_error {s : State} {turn : HostTurn} {e : Illegal} (hf : s.FAULT = false)
    (hturn : s.stream[s.CI]? = some turn) (hdecode : decode turn.word = .error e) :
    step s = .next ((s.applyHost turn.writes).raise .illegal) := by
  have hfetch : fetch s = .illegal e (s.applyHost turn.writes) := by
    simp [fetch, hf, hturn, hdecode]
  simp [step, hfetch]

/-- Settles O4: a refused word is one that is not legal, and a step on it only takes the fault. -/
theorem illegalWordsAreTheFiveKinds : Obligations.IllegalWordsAreTheFiveKinds := by
  intro w
  constructor
  · have hrefused := not_congr (exists_decode_ok_iff w)
    simp only [not_and_or, Classical.not_imp, ne_eq, not_not] at hrefused
    exact exists_decode_error_iff.trans hrefused
  · rintro ⟨e, he⟩ s ws hf hturn
    exact ⟨_, step_of_decode_error hf hturn he, rfl, rfl⟩

/-- Settles O49: the operand names no channel, so the term takes the fault alone. -/
theorem channelThreeTermsFault : Obligations.ChannelThreeTermsFault := by
  intro v s
  constructor
  · simp [exec, execOffer, State.raise]
  · simp [exec, execAvg, State.raise]

/-! ### Worked texts -/

/-- Settles O5: each text, word and command of R62 is evaluated. -/
theorem workedEncodings : Obligations.WorkedEncodings :=
  ⟨by decide, ⟨.channelThree, by decide⟩, ⟨.unassignedOp, by decide⟩⟩

/-- Settles O7: the expansions are those of R60 by definition, and the two texts are evaluated. -/
theorem pseudoCommandsExpand : Obligations.PseudoCommandsExpand :=
  ⟨fun _ _ _ => rfl, rfl, by decide, by decide⟩

/-- Settles O8: the three texts are evaluated. -/
theorem assembledTextGivesTheWords : Obligations.AssembledTextGivesTheWords :=
  ⟨by decide, by decide, by decide⟩

end Sys2Proof.Machine
end

section
/-!
The transmitter (40_transmitter.md): INIT, the decimal rendering and its padding, the bytes WRINT
sends, and what the trace of a message shows of its bytes.
-/

namespace Sys2Proof.Machine

/-! ### INIT -/

/-- Settles O23: INIT takes no branch, so its three effects are its meaning in every state. -/
theorem initDrivesTheIdleLevel : Obligations.InitDrivesTheIdleLevel := by
  intro s
  simp [exec, execInit, State.setPin, State.emit, State.complete, Line.ofBit]

/-! ### The digits of a number -/

/-- With as much fuel as its number, `digitsAux` gives Mathlib's digits, the most significant first. -/
theorem digitsAux_eq_reverse_digits {m : Nat} (hm : 0 < m) {fuel : Nat} (hf : m ≤ fuel) :
    digitsAux fuel m = (Nat.digits 10 m).reverse := by
  induction fuel generalizing m with
  | zero => omega
  | succ fuel ih =>
    by_cases h : m < 10
    · rw [digitsAux_of_lt h, Nat.digits_of_lt 10 m (by omega) h, List.reverse_singleton]
    · rw [digitsAux_step (by omega) hf, Nat.digits_def' (by omega) hm, List.reverse_cons,
        Nat.add_sub_cancel, ih (by omega) (by omega)]

theorem digits_eq_reverse_digits {m : Nat} (hm : 0 < m) : digits m = (Nat.digits 10 m).reverse :=
  digitsAux_eq_reverse_digits hm le_rfl

/-- Read from the most significant digit, a digit list denotes the number of its reversal. -/
theorem numberOf_reverse (ds : List Nat) : numberOf ds.reverse = Nat.ofDigits 10 ds := by
  simp [numberOf, Nat.ofDigits_eq_foldr, Nat.add_comm]

theorem numberOf_digits (m : Nat) : numberOf (digits m) = m := by
  rcases Nat.eq_zero_or_pos m with rfl | hm
  · rfl
  · rw [digits_eq_reverse_digits hm, numberOf_reverse, Nat.ofDigits_digits]

/-- A positive number has no leading zero (R75): its most significant digit is Mathlib's last. -/
theorem digits_eq_cons_of_pos {m : Nat} (hm : 0 < m) : ∃ d rest, digits m = d :: rest ∧ d ≠ 0 := by
  have hne : Nat.digits 10 m ≠ [] := Nat.digits_ne_nil_iff_ne_zero.mpr hm.ne'
  refine ⟨_, (Nat.digits 10 m).dropLast.reverse, ?_, Nat.getLast_digit_ne_zero 10 hm.ne'⟩
  rw [digits_eq_reverse_digits hm, ← List.reverse_concat,
    List.dropLast_append_getLast hne]

theorem digits_length_le {m k : Nat} (hk : 0 < k) (hm : m < 10 ^ k) : (digits m).length ≤ k := by
  rcases Nat.eq_zero_or_pos m with rfl | hpos
  · exact hk
  · rw [digits_eq_reverse_digits hpos, List.length_reverse]
    exact (Nat.digits_length_le_iff (by omega) m).mpr hm

/-! ### The rendering and its padding -/

/-- The rendering is a sign and the digits of the magnitude, for zero as well (R75). -/
theorem dec_eq_sign_append_digits (v : Int) :
    dec v = (if v < 0 then [charMinus] else []) ++ (digits v.natAbs).map digitChar := by
  unfold dec
  split
  · next h => subst h; rfl
  · split <;> rfl

theorem digitChar_eq (d : Nat) : digitChar d = BitVec.ofNat 8 (0x30 + d) :=
  (BitVec.ofNat_add 0x30 d).symm

/-- Settles O30: the digit list is that of the magnitude. -/
theorem decimalRenderingDenotesTheValue : Obligations.DecimalRenderingDenotesTheValue := by
  intro v
  refine ⟨digits v.natAbs, digitsAux_lt_ten _ _, numberOf_digits _, ?_, ?_, ?_⟩
  · rintro rfl
    rfl
  · intro hv
    exact digits_eq_cons_of_pos (Int.natAbs_pos.mpr hv)
  · rw [dec_eq_sign_append_digits, funext digitChar_eq]
    rfl

/-- The rendering of a sample has at most a sign and ten digits (R77). -/
theorem dec_sample_length_le (value : Sample) : (dec value.toInt).length ≤ 11 := by
  have hrange := sample_toInt_range value
  have hdigits : (digits value.toInt.natAbs).length ≤ 10 := digits_length_le (by omega) (by omega)
  have hsign : (if value.toInt < 0 then [charMinus] else []).length ≤ 1 := by split <;> simp
  rw [dec_eq_sign_append_digits, List.length_append, List.length_map]
  omega

/-- Where the rendering is as long as the width or longer, the zeros are none (R76). -/
theorem pad_eq_replicate_append (v : Int) (width : Nat) :
    pad v width = List.replicate (width - (dec v).length) charZero ++ dec v := by
  unfold pad
  simp only
  split
  · rfl
  · next h => rw [Nat.sub_eq_zero_of_le (Nat.le_of_not_lt h)]; rfl

theorem pad_length (v : Int) (width : Nat) : (pad v width).length = max (dec v).length width := by
  rw [pad_eq_replicate_append, List.length_append, List.length_replicate]
  omega

/-- Settles O31: the longer of a rendering of at most 11 bytes and a width below 256. -/
theorem paddingReachesTheWidth : Obligations.PaddingReachesTheWidth := by
  refine ⟨fun v width => ⟨pad_eq_replicate_append v width, pad_length v width⟩, ?_⟩
  intro value width
  have hdec := dec_sample_length_le value
  have hwidth := width.isLt
  rw [pad_length]
  omega

/-- Settles O32: each rendering is evaluated. -/
theorem padWorkedExamples : Obligations.PadWorkedExamples := by
  unfold Obligations.PadWorkedExamples
  decide

/-! ### WRINT -/

/-- WRINT sends the message of the padded rendering of its value (R76). -/
theorem exec_wrint (value : Sample) (width : Byte) (s : State) :
    exec (.wrint value width) s =
      .next (s.requireInit (State.transmit (pad value.toInt width.toNat))).state := rfl

/-- Settles O29: a rendering is never empty, so the message leaves the line at mark. -/
theorem wrintSendsThePaddedValue : Obligations.WrintSendsThePaddedValue := by
  intro value width s hx bytes hu
  have hne : bytes ≠ [] := pad_ne_nil _ _
  rw [exec_wrint, State.requireInit_transmit_state hx hu]
  simp only [State.afterMessage, State.complete, State.bitPeriod, bytes, if_neg hne]

/-! ### The merged view -/

/-- One segment before a wire, joined to the first segment where that has its level (R65). -/
def joinSegment (seg : Bool × Nat) : List (Bool × Nat) → List (Bool × Nat)
  | [] => [seg]
  | seg' :: rest =>
    if seg.1 = seg'.1 then (seg.1, seg.2 + seg'.2) :: rest else seg :: seg' :: rest

theorem merge_cons (seg : Bool × Nat) (segs : List (Bool × Nat)) :
    merge (seg :: segs) = joinSegment seg (merge segs) := by
  rw [merge]
  cases merge segs <;> rfl

/-- Joining moves no level in time: of two segments of one level, the second follows at once (R65). -/
theorem levelAt_joinSegment (seg : Bool × Nat) (segs : List (Bool × Nat)) (t : Nat) :
    levelAt (joinSegment seg segs) t = levelAt (seg :: segs) t := by
  obtain ⟨b, d⟩ := seg
  rcases segs with _ | ⟨⟨b', d'⟩, rest⟩
  · rfl
  · by_cases hb : b = b'
    · subst hb
      simp only [joinSegment, levelAt, if_true]
      by_cases ht : t < d
      · rw [if_pos ht, if_pos (by omega)]
      · have hrest : t - d < d' ↔ t < d + d' := by omega
        simp only [if_neg ht, hrest, Nat.sub_sub]
    · simp only [joinSegment, if_neg hb]

theorem isChain_joinSegment {segs : List (Bool × Nat)} (h : segs.IsChain fun x y => x.1 ≠ y.1)
    (seg : Bool × Nat) : (joinSegment seg segs).IsChain fun x y => x.1 ≠ y.1 := by
  rcases segs with _ | ⟨seg', rest⟩
  · exact .singleton _
  · by_cases hb : seg.1 = seg'.1
    · rw [joinSegment, if_pos hb]
      rw [List.isChain_cons, ← hb] at h
      exact List.isChain_cons.mpr h
    · rw [joinSegment, if_neg hb]
      exact .cons_cons hb h

theorem levelAt_merge (segs : List (Bool × Nat)) (t : Nat) :
    levelAt (merge segs) t = levelAt segs t := by
  induction segs generalizing t with
  | nil => rfl
  | cons seg segs ih => rw [merge_cons, levelAt_joinSegment, levelAt, levelAt, ih]

theorem isChain_merge (segs : List (Bool × Nat)) :
    (merge segs).IsChain fun x y => x.1 ≠ y.1 := by
  induction segs with
  | nil => exact .nil
  | cons seg segs ih =>
    rw [merge_cons]
    exact isChain_joinSegment ih seg

/-- Settles O36: joining a segment to the wire behind it keeps both. -/
theorem mergedViewIsTheSameWire : Obligations.MergedViewIsTheSameWire :=
  fun segs => ⟨levelAt_merge segs, isChain_merge segs⟩

/-! ### The bytes a trace shows -/

theorem segments_slotEvents (T : Nat) (levels : List Bool) :
    segments (slotEvents T levels) = levels.map fun b => (b, T) := by
  induction levels with
  | nil => rfl
  | cons b levels ih => rw [slotEvents_cons, segments, ih, List.map_cons]

theorem slotEvents_injective (T : Nat) : Function.Injective (slotEvents T) := by
  intro levels levels' h
  have hseg := congrArg segments h
  rw [segments_slotEvents, segments_slotEvents] at hseg
  exact List.map_injective_iff.mpr (fun _ _ hb => congrArg Prod.fst hb) hseg

/-- A frame holds every bit of its byte (R69). -/
theorem frameLevels_injective : Function.Injective frameLevels := by
  intro c c' h
  have hbits := List.append_cancel_left (List.append_cancel_right h)
  rw [List.map_inj_left] at hbits
  exact BitVec.eq_of_getLsbD_eq fun i hi => hbits i (List.mem_range.mpr hi)

/-- Frames are all of one length, so a message is cut into its frames in one way only (R72). -/
theorem messageLevels_injective : Function.Injective messageLevels := by
  intro bytes bytes' h
  have hlen : bytes.length = bytes'.length := by
    have := congrArg List.length h
    simp only [messageLevels_length] at this
    omega
  induction bytes generalizing bytes' with
  | nil => exact (List.length_eq_zero_iff.mp hlen.symm).symm
  | cons b bytes ih =>
    obtain ⟨b', bytes', rfl⟩ := List.exists_cons_of_length_eq_add_one hlen.symm
    obtain ⟨hb, hbytes⟩ : frameLevels b = frameLevels b' ∧
        messageLevels bytes = messageLevels bytes' := List.append_inj h (by simp)
    rw [frameLevels_injective hb, ih hbytes (Nat.succ_injective hlen)]

/-- Settles O37: a trace shows its levels, and the levels show the bytes. -/
theorem sentBytesAreReadFromTheTrace : Obligations.SentBytesAreReadFromTheTrace := by
  intro T bytes bytes'
  rw [messageEvents_eq, messageEvents_eq]
  exact ⟨segments_slotEvents T _, fun h => messageLevels_injective (slotEvents_injective T h)⟩

end Sys2Proof.Machine
end

section
/-!
The channel commands (41_smoothed_channel.md): what a tick writes under each policy, the corners of the
band test, the comparison slot and the cursor from one tick to the next, and the response of AVG.
-/

namespace Sys2Proof.Machine

/-! ### What a tick writes -/

/-- The range test as R93 writes it. -/
theorem inRange_iff (p : Params) (ch : Chan) (v : Int) :
    inRange p ch v = true ↔ p.RANGE_LO[ch.val] ≤ v ∧ v ≤ p.RANGE_HI[ch.val] := by
  simp [inRange]

/-- The slot at the cursor after a tick under `Nudge` (R93). -/
theorem State.tickValue_nudge {s : State} (hp : s.params.POLICY = .nudge) (ch : Chan) (v : Sample) :
    s.tickValue ch v =
      if inRange s.params ch v.toInt then
        (if bandAccepts (s.prev ch) v.toInt then v else Config.nudgeFn (s.prev ch) v.toInt)
      else if s.params.RANGE_REJECT_ACTION = .nudge then Config.nudgeFn (s.prev ch) v.toInt
      else s.slot ch (s.cursor ch) := by
  simp only [State.tickValue, offerWrites, hp, nudgeWrites]
  split
  · split <;> rfl
  · cases s.params.RANGE_REJECT_ACTION <;> rfl

/-- The history after a tick: one write at the cursor (R83). -/
theorem State.offer_H (ch : Chan) (v : Sample) (s : State) :
    (s.offer ch v).H = (s.setSlot ch (s.cursor ch) (s.tickValue ch v)).H := by
  rw [State.offer_eq, State.setCursor_H]

/-- The history after a tick under `Minimal` (R83, R87). -/
theorem State.offer_H_minimal {s : State} (hp : s.params.POLICY = .minimal) (ch : Chan)
    (v : Sample) :
    (s.offer ch v).H =
      if bandAccepts (s.prev ch) v.toInt then (s.setSlot ch (s.cursor ch) v).H else s.H := by
  rw [State.offer_H, State.tickValue_minimal hp]
  split
  · rfl
  · rw [State.setSlot_self]

/-- The history after a tick under `Nudge` (R93). -/
theorem State.offer_H_nudge {s : State} (hp : s.params.POLICY = .nudge) (ch : Chan) (v : Sample) :
    let nudged := (s.setSlot ch (s.cursor ch) (Config.nudgeFn (s.prev ch) v.toInt)).H
    (s.offer ch v).H =
      if inRange s.params ch v.toInt then
        (if bandAccepts (s.prev ch) v.toInt then (s.setSlot ch (s.cursor ch) v).H else nudged)
      else if s.params.RANGE_REJECT_ACTION = .nudge then nudged else s.H := by
  dsimp only
  rw [State.offer_H, State.tickValue_nudge hp]
  split
  · split <;> rfl
  · split
    · rfl
    · rw [State.setSlot_self]

/-- OFFER field by field, with the history its tick leaves (R83). -/
theorem exec_offer_of_history {ch : BitVec 2} {c : Chan} {v : Sample} {s : State}
    {H : Vector (Vector Sample N) NCH} (hc : c.val = ch.toNat) (hH : (s.offer c v).H = H) :
    exec (.offer ch v) s = .next { s with
      H := H
      CUR := s.CUR.set c.val (slotAfter (s.cursor c) 1)
      CI := s.CI + 1
      responses := s.responses ++ [none] } := by
  rw [exec_offer_of_val hc, ← hH, State.offer_eq]
  rfl

/-- Settles O39: under `Minimal` the band test alone decides whether the sample is written. -/
theorem offerMinimalTick : Obligations.OfferMinimalTick := by
  intro ch c v s hc hp
  refine exec_offer_of_history hc ?_
  rw [State.offer_H_minimal hp]
  exact if_congr (bandAccepts_iff _ _) rfl rfl

/-- Settles O40: under `Nudge` the range test decides first, and the band test within the range. -/
theorem offerNudgeTick : Obligations.OfferNudgeTick := by
  intro ch c v s hc hp
  refine exec_offer_of_history hc ?_
  rw [State.offer_H_nudge hp]
  exact if_congr (inRange_iff _ _ _) (if_congr (bandAccepts_iff _ _) rfl rfl) rfl

/-! ### The corners of the band test -/

/-- The band of a comparison value other than the sentinel, without the absolute value (R85). -/
theorem bandAccepts_iff_bounds {prev : Int} (h : prev ≠ 0) (v : Int) :
    bandAccepts prev v = true ↔ -tdiv prev 5 ≤ v - prev ∧ v - prev ≤ tdiv prev 5 := by
  rw [bandAccepts_iff, or_iff_right h, abs_le]
  rfl

/-- R86: the sentinel accepts every value. -/
theorem bandAccepts_of_sentinel {prev : Int} (h : prev = 0) (v : Int) :
    bandAccepts prev v = true :=
  (bandAccepts_iff prev v).mpr (.inl h)

/-- R90 items 2 and 5: a positive comparison value accepts no value from 0 down. -/
theorem not_bandAccepts_of_pos {prev v : Int} (hprev : 0 < prev) (hv : v ≤ 0) :
    ¬ bandAccepts prev v = true := by
  have hthreshold := tdiv_bounds_of_nonneg hprev.le (b := 5) (by decide)
  rw [bandAccepts_iff_bounds (by omega)]
  omega

/-- R90 items 3 and 4: near the sentinel the threshold is 0. -/
theorem tdiv_five_of_small {prev : Int} (hlow : -4 ≤ prev) (hhigh : prev ≤ 4) : tdiv prev 5 = 0 := by
  obtain h | h := le_total 0 prev
  · have hthreshold := tdiv_bounds_of_nonneg h (b := 5) (by decide)
    omega
  · have hthreshold := tdiv_bounds_of_nonpos h (b := 5) (by decide)
    omega

/-- R90 items 3 and 4: near the sentinel only the comparison value itself is accepted. -/
theorem bandAccepts_iff_of_small {prev : Int} (hlow : -4 ≤ prev) (hhigh : prev ≤ 4) (h : prev ≠ 0)
    (v : Int) : bandAccepts prev v = true ↔ v = prev := by
  rw [bandAccepts_iff_bounds h, tdiv_five_of_small hlow hhigh]
  omega

/-- R90 item 3: the threshold of 5 is 1. -/
theorem bandAccepts_iff_of_five {prev : Int} (h : prev = 5) (v : Int) :
    bandAccepts prev v = true ↔ 4 ≤ v ∧ v ≤ 6 := by
  subst h
  have hthreshold : tdiv 5 5 = 1 := by decide
  rw [bandAccepts_iff_bounds (by decide), hthreshold]
  omega

/-- R90 item 4: from -5 down the threshold is negative, and no value is accepted. -/
theorem not_bandAccepts_of_le_neg_five {prev : Int} (h : prev ≤ -5) (v : Int) :
    ¬ bandAccepts prev v = true := by
  have hthreshold := tdiv_bounds_of_nonpos (a := prev) (b := 5) (by omega) (by decide)
  rw [bandAccepts_iff_bounds (by omega)]
  omega

/-- The slot at the cursor holds the value of the tick (R87, R93). -/
theorem State.offer_slot_cursor (ch : Chan) (v : Sample) (s : State) :
    (s.offer ch v).slot ch (s.cursor ch) = s.tickValue ch v := by
  rw [State.offer_slot, if_pos ⟨rfl, rfl⟩]

section
variable {s : State} {ch : Chan} {v : Sample}

/-- An accepted sample is in the slot that was at the cursor (R87). -/
theorem State.offer_slot_of_accepts (hp : s.params.POLICY = .minimal)
    (h : bandAccepts (s.prev ch) v.toInt = true) :
    (s.offer ch v).slot ch (s.cursor ch) = v := by
  rw [State.offer_slot_cursor, State.tickValue_minimal hp, if_pos h]

/-- A rejected sample leaves no mark on the history (R87). -/
theorem State.offer_H_of_rejects (hp : s.params.POLICY = .minimal)
    (h : ¬ bandAccepts (s.prev ch) v.toInt = true) : (s.offer ch v).H = s.H := by
  rw [State.offer_H_minimal hp, if_neg h]

end

/-- Settles O42: each corner is a fact of the band test, and an accepted sample is written while a
rejected one changes no slot. -/
theorem offerCornerCases : Obligations.OfferCornerCases := by
  intro ch c v s hc hp
  have accepted : bandAccepts (s.prev c) v.toInt = true →
      ((s.offer c v).complete none).slot c (s.cursor c) = v := State.offer_slot_of_accepts hp
  have rejected : ¬ bandAccepts (s.prev c) v.toInt = true →
      ((s.offer c v).complete none).H = s.H := State.offer_H_of_rejects hp
  refine ⟨_, exec_offer_of_val hc v s, ?_⟩
  refine ⟨?_, ?_, ?_, ?_, ?_⟩
  · intro h
    exact accepted (bandAccepts_of_sentinel h _)
  · intro hprev hv
    exact rejected (not_bandAccepts_of_pos hprev hv)
  · intro hlow hhigh hne
    have hband := bandAccepts_iff_of_small hlow hhigh hne v.toInt
    exact ⟨fun h => accepted (hband.mpr h), fun h => rejected (mt hband.mp h)⟩
  · intro hfive
    have hband := bandAccepts_iff_of_five hfive v.toInt
    split
    case isTrue h => exact accepted (hband.mpr h)
    case isFalse h => exact rejected (mt hband.mp h)
  · intro h
    exact rejected (not_bandAccepts_of_le_neg_five h _)

/-! ### From one tick to the next -/

theorem slotAfter_slotAfter (c : Slot) (j k : Nat) :
    slotAfter (slotAfter c j) k = slotAfter c (j + k) := by
  ext
  simp [Nat.add_assoc]

/-- A whole turn of the rotation, or several, ends at its start (R92). -/
theorem slotAfter_of_dvd {k : Nat} (h : N ∣ k) (c : Slot) : slotAfter c k = c := by
  obtain ⟨m, rfl⟩ := h
  ext
  simp [Nat.mod_eq_of_lt (slot_lt c)]

/-- The cursor step of a tick (R88). -/
theorem State.offer_cursor_self (ch : Chan) (v : Sample) (s : State) :
    (s.offer ch v).cursor ch = slotAfter (s.cursor ch) 1 := by
  rw [State.offer_cursor, if_pos rfl]

/-- The comparison slot of the next tick is the slot this tick targeted (R91): its offset and the
cursor step make one turn of the rotation. -/
theorem State.comparisonSlot_offer (ch : Chan) (v : Sample) (s : State) :
    slotAfter ((s.offer ch v).cursor ch) PREV_OFFSET = s.cursor ch := by
  rw [State.offer_cursor_self, slotAfter_slotAfter]
  exact slotAfter_of_dvd (by decide) _

/-- Settles O43: the next comparison slot holds the value of this tick, given by its policy. -/
theorem nextTickComparesWithThisTicksSlot : Obligations.NextTickComparesWithThisTicksSlot := by
  intro ch c v s t hc hexec
  rw [exec_offer_of_val hc] at hexec
  cases hexec
  have hcompared : slotAfter (((s.offer c v).complete none).cursor c) PREV_OFFSET = s.cursor c :=
    s.comparisonSlot_offer c v
  have hvalue : ((s.offer c v).complete none).slot c
      (slotAfter (((s.offer c v).complete none).cursor c) PREV_OFFSET) = s.tickValue c v := by
    rw [hcompared]
    exact s.offer_slot_cursor c v
  refine ⟨hcompared, fun hp => hvalue.trans ?_, fun hp => hvalue.trans ?_⟩
  · rw [State.tickValue_minimal hp]
    exact if_congr (bandAccepts_iff _ _) rfl rfl
  · rw [State.tickValue_nudge hp]
    exact if_congr (inRange_iff _ _ _) (if_congr (bandAccepts_iff _ _) rfl rfl) rfl

/-- A command that completes hands its state to the commands after it (R44). -/
theorem runCommands_cons_of_next {i : Instr} {s t : State} (h : exec i s = .next t)
    (hf : t.FAULT = false) (is : List Instr) : runCommands (i :: is) s = runCommands is t := by
  simp [runCommands, h, hf]

/-- OFFERs on one channel complete one after the other, and each takes the cursor one slot on (R92,
R100). -/
theorem runCommands_offers {ch : BitVec 2} {c : Chan} (hc : c.val = ch.toNat) (vs : List Sample)
    {s : State} (hf : s.FAULT = false) :
    ∃ t, runCommands (vs.map (Instr.offer ch)) s = .next t ∧
      t.cursor c = slotAfter (s.cursor c) vs.length := by
  induction vs generalizing s with
  | nil => exact ⟨s, rfl, (slotAfter_of_dvd (dvd_zero N) _).symm⟩
  | cons v vs ih =>
    have hunfaulted : ((s.offer c v).complete none).FAULT = false := by simpa using hf
    obtain ⟨t, hrun, hcursor⟩ := ih hunfaulted
    refine ⟨t, ?_, ?_⟩
    · rw [List.map_cons, runCommands_cons_of_next (exec_offer_of_val hc v s) hunfaulted, hrun]
    · rw [hcursor, State.complete_cursor, State.offer_cursor_self, slotAfter_slotAfter,
        List.length_cons, Nat.add_comm]

/-- Settles O44: `k` ticks take the cursor `k` slots on, and nine slots on are three turns. -/
theorem cursorAfterAnyTicks : Obligations.CursorAfterAnyTicks := by
  intro ch c vs s hc hf
  obtain ⟨t, hrun, hcursor⟩ := runCommands_offers hc vs hf
  refine ⟨t, hrun, by rw [hcursor, slotAfter_val], fun hlen => ?_⟩
  rw [hcursor, hlen]
  exact slotAfter_of_dvd (by decide) _

/-! ### AVG, and the answer of every command -/

/-- Settles O45: the mean of a channel is `tdiv` of the sum of its three slots. -/
theorem avgRespondsTheTruncatingMean : Obligations.AvgRespondsTheTruncatingMean := by
  intro ch c s hc
  rw [exec_avg_of_val hc, State.mean, State.slotSum_eq]
  rfl

/-- Settles O19: every command has an effect, and an effect is a next state. -/
theorem everyCommandAnswersANextState : Obligations.EveryCommandAnswersANextState := by
  intro i s
  obtain ⟨t, hexec, -⟩ := exec_effect i s
  exact ⟨t, hexec⟩

end Sys2Proof.Machine
end

section
/-!
The report (42_report.md): the averages it renders, and the message REPORT sends of them.
-/

namespace Sys2Proof.Machine

/-! ### The averages -/

/-- The average of a channel from its slots, one by one (R96). -/
theorem State.mean_eq_tdiv_slots (s : State) (c : Chan) :
    s.mean c = Int.tdiv ((s.slot c 0).toInt + (s.slot c 1).toInt + (s.slot c 2).toInt) 3 := by
  rw [State.mean, State.slotSum_eq]
  rfl

/-- The average of a stabilised channel is the sample in all of its slots (R96). -/
theorem State.mean_of_slots_eq {s : State} {c : Chan} {v : Sample} (h : ∀ i, s.slot c i = v) :
    s.mean c = v.toInt := by
  have hsum : v.toInt + v.toInt + v.toInt = v.toInt * 3 := by ring
  rw [State.mean_eq_tdiv_slots, h, h, h, hsum, Int.mul_tdiv_cancel _ (by decide)]

/-! ### The message of REPORT -/

/-- REPORT sends its message as WRINT sends a rendering (R102). -/
theorem exec_report (s : State) :
    exec .report s = .next (s.requireInit (State.transmit s.reportMessage)).state := rfl

/-- An undisturbed REPORT after INIT sends its message whole and completes (R102, R114). -/
theorem exec_report_of_undisturbed {s : State} (hx : s.TXINIT = true)
    (hu : s.Undisturbed (10 * s.reportMessage.length)) :
    exec .report s = .next ((s.afterMessage s.reportMessage).complete none) := by
  rw [exec_report, State.requireInit_transmit_state hx hu]

/-- Settles O50: the message of REPORT is the one spelled out from the slots, and it is never empty. -/
theorem reportSendsTheMessage : Obligations.ReportSendsTheMessage := by
  intro s hx mean bytes hu
  have hmean : s.mean = mean := funext s.mean_eq_tdiv_slots
  have hbytes : s.reportMessage = bytes := by rw [State.reportMessage, hmean]; rfl
  have hne : bytes ≠ [] := hbytes ▸ reportMessage_ne_nil s
  rw [exec_report_of_undisturbed hx (hbytes ▸ hu), hbytes]
  simp only [State.afterMessage, State.complete, State.bitPeriod, if_neg hne]

/-- Settles O51: the averages of the stabilised channels are their samples, and the rendering of the
three is evaluated. -/
theorem reportWorkedMessage : Obligations.ReportWorkedMessage := by
  intro s hx hp h0 h1 h2
  have hbytes : s.reportMessage =
      [0x32, 0x33, 0x34, 0x35, 0x30, 0x35, 0x36, 0x37, 0x31, 0x30, 0x31, 0x33, 0x0D, 0x0A] := by
    rw [State.reportMessage, State.mean_of_slots_eq h0, State.mean_of_slots_eq h1,
      State.mean_of_slots_eq h2]
    decide
  refine ⟨_, exec_report_of_undisturbed hx (hp.undisturbed _), rfl, ?_⟩
  rw [hbytes]
  rfl

end Sys2Proof.Machine
end

section
/-!
The faults (60_exceptions.md): the step that takes or meets one, the transmitting command before INIT,
the string that runs out of the buffer, and the disturbed `Wait`.
-/

namespace Sys2Proof.Machine

/-! ### The step -/

/-- Settles O10: the state of the fault is that after the host's turn, with `FAULT` and `FCODE` set. -/
theorem illegalWordRaisesIllegalFault : Obligations.IllegalWordRaisesIllegalFault := by
  intro s turn e hf hturn hdecode
  rw [step_of_decode_error hf hturn hdecode]
  rfl

/-- Settles O11: fetching tests `FAULT` before it looks at the stream. -/
theorem faultedStateHasNoStep : Obligations.FaultedStateHasNoStep := by
  intro s hf
  have hfetch : fetch s = .halted s.FCODE := by simp [fetch, hf]
  simp [step, hfetch]

/-! ### No preemption -/

/-- Under `NOPREEMPT` a command takes the next draws and leaves the rest (R116). -/
theorem Effect.draws_suffix {s t : State} {i : Instr} (h : Effect s i t) (hp : s.NoPreempt) :
    t.draws <:+ s.draws := by
  cases h with
  | sent | ranOut => exact List.drop_suffix _ _
  | broken _ _ _ _ _ hdisturbed => exact absurd hp hdisturbed
  | offered => simp
  | _ => exact List.suffix_rfl

/-- The premise `NOPREEMPT` stays, since no draw is added (R142). -/
theorem Effect.keeps_noPreempt {s t : State} {i : Instr} (h : Effect s i t) (hp : s.NoPreempt) :
    t.NoPreempt :=
  fun e hmem => hp e ((h.draws_suffix hp).mem hmem)

/-- Under `NOPREEMPT` no command raises `F_PREEMPT` (R116). -/
theorem Effect.fcode_ne_preempt {s t : State} {i : Instr} (h : Effect s i t) (hp : s.NoPreempt)
    (hcode : s.FCODE ≠ .preempt) : t.FCODE ≠ .preempt := by
  cases h with
  | unready | ranOut | offeredNone | averagedNone => nofun
  | broken _ _ _ _ _ hdisturbed => exact absurd hp hdisturbed
  | offered => simpa using hcode
  | configured | sent | averaged => exact hcode

/-- Settles O20: the host's turn and an illegal word draw nothing, and every command keeps both. -/
theorem noPreemptionNoPreemptFault : Obligations.NoPreemptionNoPreemptFault :=
  fun _ _ hp hcode => step_keeps (P := fun s => s.NoPreempt ∧ s.FCODE ≠ .preempt) ⟨hp, hcode⟩
    (fun _ h => h)
    (fun _ ⟨hp, _⟩ _ => ⟨hp, nofun⟩)
    (fun _ _ _ ⟨hp, hcode⟩ _ he => ⟨he.keeps_noPreempt hp, he.fcode_ne_preempt hp hcode⟩)

/-! ### Before INIT -/

/-- Before INIT a transmitting command has no other effect than its fault (R114). -/
theorem Effect.eq_raise_noInit {s t : State} {i : Instr} (h : Effect s i t)
    (hi : transmits i = true) (hx : s.TXINIT = false) : t = s.raise .noInit := by
  have ready_absurd : s.TXINIT ≠ true := by simp [hx]
  cases h with
  | unready => rfl
  | sent _ _ hready | ranOut _ _ hready | broken _ _ _ _ hready => exact absurd hready ready_absurd
  | configured | offered | averaged | offeredNone | averagedNone => cases hi

/-- The commands that send nothing keep the fault code, or raise `F_ILLEGAL` (R113, R114). -/
theorem Effect.fcode_of_not_transmits {s t : State} {i : Instr} (h : Effect s i t)
    (hi : transmits i = false) : t.FCODE = s.FCODE ∨ t.FCODE = .illegal := by
  cases h with
  | configured | averaged => exact .inl rfl
  | offered => exact .inl (by simp)
  | offeredNone | averagedNone => exact .inr rfl
  | unready hsends | sent _ hsends | broken _ _ _ hsends => simp [hi] at hsends
  | ranOut => cases hi

/-- Settles O25, by the effects a command can have before INIT and without sending. -/
theorem transmitBeforeInitFaults : Obligations.TransmitBeforeInitFaults := by
  intro i s
  refine ⟨fun hi hx => ?_, fun hi t hexec hcode => ?_⟩
  · obtain ⟨t, hexec, he⟩ := exec_effect i s
    rw [hexec, he.eq_raise_noInit hi hx]
    rfl
  · obtain hkept | hillegal := (exec_next hexec).fcode_of_not_transmits hi
    · exact hkept ▸ hcode
    · exact absurd (hcode.symm.trans hillegal) nofun

/-! ### The string that runs out of the buffer -/

/-- WRSTR after INIT sends the bytes its string begins with, and goes on behind them (R73). -/
theorem exec_wrstr_of_holds {addr : Addr} {bytes : List Byte} {s : State} (hx : s.TXINIT = true)
    (hb : s.BufHolds addr.toNat bytes) :
    exec (.wrstr addr) s = .next ((s.transmit bytes).bind
      (State.sendString (addrLimit - addrOf addr - bytes.length)
        (addr.toNat + bytes.length))).state := by
  rw [← State.sendString_holds hb (addr_room addr), exec, execWrstr, State.requireInit, if_pos hx]
  rfl

/-- `MemRead` finds no byte past the last address or where none is mapped (R37, R39). -/
theorem State.memRead_eq_none_iff {s : State} {a : Nat} :
    s.memRead a = none ↔ a > 0xFFFFFFFF ∨ s.hostMem.read a = none := by
  have hlimit : a < addrLimit ↔ ¬ a > 0xFFFFFFFF := by unfold addrLimit; omega
  unfold State.memRead
  split
  case isTrue ha => exact (or_iff_right (hlimit.mp ha)).symm
  case isFalse ha => exact iff_of_true rfl (.inl (not_not.mp (mt hlimit.mpr ha)))

/-- Settles O27: the message of the bytes passes, and the read behind them finds no byte. -/
theorem wrstrRunsOutOfTheBuffer : Obligations.WrstrRunsOutOfTheBuffer := by
  intro addr bytes s hx hb hend hu
  have hread : (s.afterMessage bytes).memRead (addr.toNat + bytes.length) = none :=
    State.memRead_eq_none_iff.mpr hend
  rw [exec_wrstr_of_holds hx hb, State.transmit_ok hu, Flow.bind_ok, State.sendString_bad hread]
  rfl

/-! ### The disturbed `Wait` -/

/-- The state in which a command is broken off by `F_PREEMPT` when it has emitted `sent`, with the
draws `rest` still to come (R111, R116). -/
def State.preempted (sent : List Event) (rest : List Draw) (s : State) : State :=
  { s with
    LINE := lineOf sent
    TRACE := s.TRACE ++ sent
    draws := rest
    FAULT := true
    FCODE := .preempt }

/-- Bit slots broken off in the slot of level `b` have emitted those before it and that level. -/
theorem State.brokenOff_eq_preempted (pre : List Bool) (b : Bool) (rest : List Draw) (s : State) :
    s.brokenOff pre b rest =
      s.preempted (slotEvents s.params.BIT_PERIOD_US pre ++ [.level b]) rest := by
  rw [State.preempted, lineOf_snoc_level]
  rfl

/-- The events before the delay of one bit slot: the slots before it, and its level. -/
theorem slotEvents_take (T : Nat) (pre : List Bool) (b : Bool) (post : List Bool) :
    (slotEvents T (pre ++ b :: post)).take (2 * pre.length + 1) =
      slotEvents T pre ++ [.level b] := by
  rw [slotEvents_append, ← slotEvents_length T pre, List.take_length_add_append]
  rfl

/-- A message whose `Wait` number `ds.length` is the first disturbed one ends with the level of that
slot (R111, R116). -/
theorem State.transmit_preempted {bytes : List Byte} {s : State} {ds rest : List Draw} {e : Draw}
    (hdraws : s.draws = ds ++ e :: rest) (hds : ∀ d ∈ ds, d.disturbs = false)
    (he : e.disturbs = true) (hlen : ds.length < 10 * bytes.length) :
    s.transmit bytes = .raised (s.preempted
      ((messageEvents s.params.BIT_PERIOD_US bytes).take (2 * ds.length + 1)) rest) := by
  have hlt : ds.length < (messageLevels bytes).length := by simpa using hlen
  obtain ⟨pre, b, post, hlevels, hpre⟩ :
      ∃ pre b post, messageLevels bytes = pre ++ b :: post ∧ pre.length = ds.length :=
    ⟨_, (messageLevels bytes)[ds.length], (messageLevels bytes).drop (ds.length + 1), by simp,
      List.length_take_of_le hlt.le⟩
  rw [State.transmit_eq_bitSlots, messageEvents_eq, hlevels,
    State.bitSlots_raised hdraws hpre.symm hds he, State.brokenOff_eq_preempted, ← hpre,
    slotEvents_take]

/-- WRBYTE, WRINT and REPORT send their message and nothing else (R68, R76, R102). -/
theorem exec_of_messageOf {i : Instr} {bytes : List Byte} {s : State}
    (h : s.messageOf i = some bytes) :
    exec i s = .next (s.requireInit (State.transmit bytes)).state := by
  cases i with
  | wrbyte c => cases h; exact exec_wrbyte c s
  | wrint value width => cases h; exact exec_wrint value width s
  | report => cases h; exact exec_report s
  | init | wrstr | offer | avg => cases h

/-- Settles O33: the message of the command is broken off at the disturbed `Wait`. -/
theorem disturbedWaitBreaksTheMessage : Obligations.DisturbedWaitBreaksTheMessage := by
  intro i bytes s ds rest e hx hbytes hdraws hds he hlen sent
  rw [exec_of_messageOf hbytes, State.requireInit, if_pos hx,
    State.transmit_preempted hdraws hds he hlen]
  rfl

/-- Settles O34: the frames of the string are a message, and the loop of WRSTR ends where that is broken
off. -/
theorem disturbedWaitBreaksTheString : Obligations.DisturbedWaitBreaksTheString := by
  intro addr bytes s ds rest e hx hb hdraws hds he hlen sent
  rw [exec_wrstr_of_holds hx hb, State.transmit_preempted hdraws hds he hlen, Flow.bind_raised]
  rfl

end Sys2Proof.Machine
end

section
/-!
The end of the stream and the trace durations (70_reset_and_hazards.md): where a step finds no command,
and how much time each command adds to the trace.
-/

namespace Sys2Proof.Machine

/-! ### The end of the stream -/

/-- Past the stream fetching finds no turn of the host (R141). -/
theorem step_past_stream {s : State} (hf : s.FAULT = false) (h : s.stream.length ≤ s.CI) :
    step s = .refused .endOfStream := by
  have hfetch : fetch s = .ended := by simp [fetch, hf, List.getElem?_eq_none h]
  simp [step, hfetch]

/-- Within the stream the step answers a next state, whether the word is illegal or a command. -/
theorem step_within_stream {s : State} (hf : s.FAULT = false) (h : s.CI < s.stream.length) :
    ∃ t, step s = .next t := by
  have hturn := List.getElem?_eq_getElem h
  cases hdecode : decode s.stream[s.CI].word with
  | error why => exact ⟨_, step_of_decode_error hf hturn hdecode⟩
  | ok i =>
    obtain ⟨t, hexec, -⟩ := exec_effect i (s.applyHost s.stream[s.CI].writes)
    exact ⟨t, (stepRunsTheDecodedCommand s _ i hf hturn hdecode).trans hexec⟩

/-- Settles O12: a step within the stream answers a next state, which is no refusal. -/
theorem finishedStreamGivesNoCommand : Obligations.FinishedStreamGivesNoCommand := by
  refine fun s hf => ⟨fun hstep => not_lt.mp fun hlt => ?_, step_past_stream hf⟩
  obtain ⟨t, hnext⟩ := step_within_stream hf hlt
  cases hstep.symm.trans hnext

/-! ### The duration of a message -/

/-- Ten bit slots per byte, each of one bit period (R70, R138). -/
theorem duration_messageEvents (T : Nat) (bytes : List Byte) :
    duration (messageEvents T bytes) = 10 * bytes.length * T := by
  rw [messageEvents_eq, duration_slotEvents, messageLevels_length]

/-- A rendering of 0 to 9999 fits the field of REPORT. -/
theorem dec_length_le_four {v : Int} (h0 : 0 ≤ v) (h : v ≤ 9999) : (dec v).length ≤ 4 := by
  have hdigits : (digits v.natAbs).length ≤ 4 := digits_length_le (by omega) (by omega)
  simpa [dec_eq_sign_append_digits, not_lt.mpr h0] using hdigits

/-- The message of REPORT is its three fields, CR and LF (R102, R103). -/
theorem State.reportMessage_length (s : State) :
    s.reportMessage.length =
      max (dec (s.mean 0)).length 4 + max (dec (s.mean 1)).length 4 +
        max (dec (s.mean 2)).length 4 + 2 := by
  simp [State.reportMessage, pad_length, REPORT_WIDTH, Nat.add_assoc]

/-- With every average in 0 to 9999 the message of REPORT has fourteen bytes (R105). -/
theorem State.reportMessage_length_of_four_digits {s : State}
    (h : ∀ ch, 0 ≤ s.mean ch ∧ s.mean ch ≤ 9999) : s.reportMessage.length = 14 := by
  have hfield (ch : Chan) : max (dec (s.mean ch)).length 4 = 4 :=
    have ⟨h0, h9999⟩ := h ch
    max_eq_right (dec_length_le_four h0 h9999)
  rw [State.reportMessage_length, hfield, hfield, hfield]

/-! ### What a command adds to the trace -/

/-- The command answers a next state, keeps `FAULT` and adds the duration `d` to the trace (R138). -/
def State.AddsDuration (s : State) (i : Instr) (d : Nat) : Prop :=
  ∃ t, exec i s = .next t ∧ t.FAULT = s.FAULT ∧ duration t.TRACE = duration s.TRACE + d

/-- INIT waits for nothing (R67). -/
theorem State.addsDuration_init (s : State) : s.AddsDuration .init 0 :=
  ⟨_, initDrivesTheIdleLevel s, rfl, duration_append _ _⟩

/-- OFFER touches neither the fault nor the trace (R99). -/
theorem State.addsDuration_offer (s : State) {ch : BitVec 2} (hch : ch ≠ 3#2) (v : Sample) :
    s.AddsDuration (.offer ch v) 0 := by
  obtain ⟨c, -, hc⟩ := chanOf_wellFormed (decide_eq_true hch)
  exact ⟨_, exec_offer_of_val hc v s, by simp, by simp⟩

/-- AVG touches neither the fault nor the trace (R99). -/
theorem State.addsDuration_avg (s : State) {ch : BitVec 2} (hch : ch ≠ 3#2) :
    s.AddsDuration (.avg ch) 0 := by
  obtain ⟨c, -, hc⟩ := chanOf_wellFormed (decide_eq_true hch)
  exact ⟨_, exec_avg_of_val hc s, by simp, by simp⟩

/-- A command that sends a message adds the duration of the message (R70). -/
theorem State.addsDuration_message {s : State} {i : Instr} {bytes : List Byte} (hx : s.TXINIT = true)
    (hp : s.NoPreempt)
    (hexec : exec i s = .next (s.requireInit (State.transmit bytes)).state) :
    s.AddsDuration i (10 * bytes.length * s.params.BIT_PERIOD_US) := by
  rw [State.requireInit_transmit_state hx (hp.undisturbed _)] at hexec
  refine ⟨_, hexec, rfl, ?_⟩
  rw [← duration_messageEvents, ← duration_append]
  rfl

/-- Settles O38: the commands that send nothing add no delay, and the others add their message's. -/
theorem traceDurationsOfTheCommands : Obligations.TraceDurationsOfTheCommands := by
  intro s T added fieldLen
  refine ⟨s.addsDuration_init, fun ch v hch => s.addsDuration_offer hch v,
    fun ch hch => s.addsDuration_avg hch, fun hx hp => ?_⟩
  have hreport : added .report (10 * s.reportMessage.length * T) :=
    State.addsDuration_message hx hp (exec_report s)
  refine ⟨fun c => State.addsDuration_message hx hp (exec_wrbyte c s),
    fun addr bytes hb => State.addsDuration_message hx hp (exec_wrstr_of_terminated hb),
    fun value width => ?_, ?_, fun hmeans => ?_⟩
  · rw [← pad_length]
    exact State.addsDuration_message hx hp (exec_wrint value width s)
  · rwa [State.reportMessage_length] at hreport
  · rwa [State.reportMessage_length_of_four_digits hmeans] at hreport

end Sys2Proof.Machine
end
